-- ==== Sys2Proof/Word.lean ====
section
/-! DEFINITION. The widths of R5 and the values of those widths, bytes, exact milliseconds. A copy between two kinds of
value (`Fx07`, `2nnn`) type-checks as long as their widths agree, as the defaults of R5 do. -/

namespace Sys2Proof

/-- `REG_WIDTH`, R5. -/
@[simp] abbrev Config.regWidth : Nat := 8
/-- `I_WIDTH`, R5. -/
@[simp] abbrev Config.iWidth : Nat := 16
/-- `PC_WIDTH`, R5. -/
@[simp] abbrev Config.pcWidth : Nat := 16
/-- `STACK_ENTRY_WIDTH`, R5 (D11). -/
@[simp] abbrev Config.stackEntryWidth : Nat := 16
/-- `TIMER_WIDTH`, R5. -/
@[simp] abbrev Config.timerWidth : Nat := 8
/-- `INSTR_WIDTH`, R5. -/
@[simp] abbrev Config.instrWidth : Nat := 16

/-- A byte of memory (R50), an immediate `kk` or a row of a sprite (R10). -/
abbrev Byte := BitVec 8

/-- The value of a general register (R21). -/
abbrev RegVal := BitVec Config.regWidth

/-- The value of `I` (R26). -/
abbrev IVal := BitVec Config.iWidth

/-- The value of `PC` (R25). -/
abbrev PcVal := BitVec Config.pcWidth

/-- A return address on the stack (R27). -/
abbrev StackEntry := BitVec Config.stackEntryWidth

/-- The value of `DT` or `ST` (R29). -/
abbrev TimerVal := BitVec Config.timerWidth

/-- An instruction word (R70). -/
abbrev Word := BitVec Config.instrWidth

/-- Wall-clock time in milliseconds: an exact non-negative rational (R31, R191). -/
structure Millis where
  val : Rat
  nonneg : 0 ≤ val
deriving DecidableEq, Repr

end Sys2Proof
end

