-- ==== Sys2Proof/Config.lean ====
section
/-! DEFINITION. What is fixed for the machine (the sizes of R5), the parameters it is configured with, the inputs of a
tick (R112) and the free values: opaque constants that nothing in Lean can evaluate. The parameters whose value
the spec calls open to audit (font, shift source, bit order, frame period) have their defaults in Machine/Params.lean. -/

namespace Sys2Proof

/-- `RAM_SIZE`, R5. -/
abbrev Config.ramSize : Nat := 4096
/-- `NUM_REGS`, R5. -/
abbrev Config.numRegs : Nat := 16
/-- `STACK_DEPTH`, R5. -/
abbrev Config.stackDepth : Nat := 16
/-- `PROGRAM_START`, R5. -/
abbrev Config.programStart : Nat := 0x200
/-- `FONT_BASE`, R5. -/
abbrev Config.fontBase : Nat := 0x000
/-- `FONT_GLYPH_BYTES`, R5. -/
abbrev Config.fontGlyphBytes : Nat := 5
/-- `FONT_GLYPHS`, R5. -/
abbrev Config.fontGlyphs : Nat := 16
/-- `DISPLAY_W`, R5. -/
abbrev Config.displayW : Nat := 64
/-- `DISPLAY_H`, R5. -/
abbrev Config.displayH : Nat := 32
/-- `KEY_COUNT`, R5. -/
abbrev Config.keyCount : Nat := 16
/-- The bytes of one instruction word: `INSTR_WIDTH` is "16 bits, 2 bytes" (R5, R70). -/
abbrev Config.instrBytes : Nat := Config.instrWidth / 8
/-- The largest program the map holds, `RAM_SIZE - PROGRAM_START` (R6, R58). -/
abbrev Config.maxProgram : Nat := Config.ramSize - Config.programStart

/-- The index of a general register, `V0` to `VF` (R21). -/
abbrev RegIdx := Fin Config.numRegs

/-- A key code, 0 to 15 (R200). -/
abbrev KeyCode := Fin Config.keyCount

/-- The values of the parameter `SHIFT_SOURCE` (R5, R161). -/
inductive ShiftSource where
  | vx
  | vy
deriving DecidableEq, Repr

/-- The values of the parameter `SPRITE_BIT_ORDER` (R5, R213). -/
inductive SpriteBitOrder where
  | msbLeft
  | lsbLeft
deriving DecidableEq, Repr

/-- The parameters a machine is configured with (D19, D20, D29, U13 to U15); their defaults are in Machine/Params.lean.
A state holds them, and no step changes them, so a claim about every state is about every value of them. -/
structure Params where
  /-- `SHIFT_SOURCE` (R5, R161) -/
  shiftSource : ShiftSource
  /-- `SPRITE_BIT_ORDER` (R5, R213) -/
  spriteBitOrder : SpriteBitOrder
  /-- `FRAME_PERIOD` (R5, R191) -/
  framePeriod : Millis
  /-- `FONT_TABLE` (R5, R57), which `reset()` installs -/
  font : Vector Byte (Config.fontGlyphs * Config.fontGlyphBytes)
deriving DecidableEq, Repr

/-- What the outside gives one tick (R112): the elapsed time and the answers its port calls will get. `keysDown`
answers `is_key_down(k)` by membership; a tick makes at most one call of each port, so every combination of answers
is some `TickInput`. The collision answer of `draw_sprite` is no input here: the model has the reference display. -/
structure TickInput where
  elapsed : Millis
  randomByte : Byte
  keysDown : List KeyCode
  polledKey : Option KeyCode
deriving DecidableEq, Repr

/-- Free value: the numerator of the `n`-th undetermined `elapsed_ms` (R112, U11). -/
opaque Config.freeElapsedNum : Nat → Nat
/-- Free value: the denominator of the `n`-th undetermined `elapsed_ms` (R112, U11). -/
opaque Config.freeElapsedDen : Nat → Nat
/-- Free value: the `n`-th undetermined answer of `random_byte()` (R143, U8). -/
opaque Config.freeRandomByte : Nat → Byte
/-- Free value: the keys `is_key_down` reports in the `n`-th undetermined tick (R112, U9). -/
opaque Config.freeKeysDown : Nat → List KeyCode
/-- Free value: the `n`-th undetermined answer of `poll_any_key_down()` (R112, U9, U12). -/
opaque Config.freePolledKey : Nat → Option KeyCode

end Sys2Proof
end

