-- ==== Sys2Proof/Syntax.lean ====
section
/-! DEFINITION. The 34 instructions of R74, one constructor for each row of the opcode map. -/

namespace Sys2Proof

/-- The instruction set (R74). `x`, `y` name registers, `kk` is an immediate byte, `nnn` an absolute address and
`n` a row count (R71, R73); `nnn` and `n` are naturals because sums with them are "formed in full" (R10), and
`Instr.wellFormed` bounds them by their fields. -/
inductive Instr where
  | cls
  | ret
  | jmp (nnn : Nat)
  | call (nnn : Nat)
  | seVxKk (x : RegIdx) (kk : Byte)
  | sneVxKk (x : RegIdx) (kk : Byte)
  | seVxVy (x y : RegIdx)
  | ldVxKk (x : RegIdx) (kk : Byte)
  | addVxKk (x : RegIdx) (kk : Byte)
  | ldVxVy (x y : RegIdx)
  | or (x y : RegIdx)
  | and (x y : RegIdx)
  | xor (x y : RegIdx)
  | addVxVy (x y : RegIdx)
  | sub (x y : RegIdx)
  | shr (x y : RegIdx)
  | subn (x y : RegIdx)
  | shl (x y : RegIdx)
  | sneVxVy (x y : RegIdx)
  | ldINnn (nnn : Nat)
  | jmpV0 (nnn : Nat)
  | rnd (x : RegIdx) (kk : Byte)
  | drw (x y : RegIdx) (n : Nat)
  | skp (x : RegIdx)
  | sknp (x : RegIdx)
  | ldVxDt (x : RegIdx)
  | ldVxK (x : RegIdx)
  | ldDtVx (x : RegIdx)
  | ldStVx (x : RegIdx)
  | addIVx (x : RegIdx)
  | ldFVx (x : RegIdx)
  | ldBVx (x : RegIdx)
  | ldMemVx (x : RegIdx)
  | ldVxMem (x : RegIdx)
deriving DecidableEq, Repr

end Sys2Proof
end

