-- ==== Sys2Proof/WellFormed.lean ====
section
/-! DEFINITION. Which instructions the encoding can express: the operand fields hold their operands. -/

namespace Sys2Proof

/-- `nnn` fits the 12-bit address field `w[11:0]` (R71, R73). -/
def fitsAddress (nnn : Nat) : Bool := nnn < 2 ^ 12

/-- `n` fits the 4-bit count field `w[3:0]` (R71, R73). -/
def fitsCount (n : Nat) : Bool := n < 2 ^ 4

/-- Every operand fits its field (R71). Register indices and `kk` fit by their types. -/
def Instr.wellFormed : Instr → Bool
  | .cls | .ret => true
  | .jmp nnn | .call nnn | .ldINnn nnn | .jmpV0 nnn => fitsAddress nnn
  | .seVxKk _ _ | .sneVxKk _ _ | .ldVxKk _ _ | .addVxKk _ _ | .rnd _ _ => true
  | .seVxVy _ _ | .sneVxVy _ _ | .ldVxVy _ _ | .or _ _ | .and _ _ | .xor _ _ => true
  | .addVxVy _ _ | .sub _ _ | .shr _ _ | .subn _ _ | .shl _ _ => true
  | .drw _ _ n => fitsCount n
  | .skp _ | .sknp _ | .ldVxDt _ | .ldVxK _ | .ldDtVx _ | .ldStVx _ => true
  | .addIVx _ | .ldFVx _ | .ldBVx _ | .ldMemVx _ | .ldVxMem _ => true

/-- `Instr.wellFormed` as a decidable proposition. -/
abbrev Instr.WellFormed (i : Instr) : Prop := i.wellFormed = true

end Sys2Proof
end

