-- ==== Sys2Proof/Decode.lean ====
section
/-! DEFINITION. The decoder (R70 to R80): fields of a word, the total decoder of R75, decoding of a byte list, and
after it the encoder written from the formats of R72 and the opcode map of R74, and the assembly syntax of R81. -/

namespace Sys2Proof

/-! ### Fields of an instruction word (R71) -/

/-- `op = w[15:12]`, the operation family. -/
def opField (w : Word) : Nat := (w.extractLsb' 12 4).toNat
/-- `x = w[11:8]`. -/
def xField (w : Word) : RegIdx := Fin.ofNat Config.numRegs (w.extractLsb' 8 4).toNat
/-- `y = w[7:4]`. -/
def yField (w : Word) : RegIdx := Fin.ofNat Config.numRegs (w.extractLsb' 4 4).toNat
/-- `n = w[3:0]`. -/
def nField (w : Word) : Nat := (w.extractLsb' 0 4).toNat
/-- `kk = w[7:0]`. -/
def kkField (w : Word) : Byte := w.extractLsb' 0 8
/-- `nnn = w[11:0]`. -/
def nnnField (w : Word) : Nat := (w.extractLsb' 0 12).toNat

/-! ### The decoder (R75, R76) -/

/-- What a word decodes to: one of the 34 instructions, or `Unknown(w)` carrying the whole word (R76, R79). -/
inductive Operation where
  | instr (i : Instr)
  | unknown (w : Word)
deriving DecidableEq, Repr

/-- Family 0x0: only `00E0` and `00EE` are instructions (R75, R76). -/
def decode0 (w : Word) : Operation :=
  if w = 0x00E0#16 then .instr .cls
  else if w = 0x00EE#16 then .instr .ret
  else .unknown w

/-- Family 0x8: the low nibble selects (R75). -/
def decode8 (w : Word) : Operation :=
  match nField w with
  | 0x0 => .instr (.ldVxVy (xField w) (yField w))
  | 0x1 => .instr (.or (xField w) (yField w))
  | 0x2 => .instr (.and (xField w) (yField w))
  | 0x3 => .instr (.xor (xField w) (yField w))
  | 0x4 => .instr (.addVxVy (xField w) (yField w))
  | 0x5 => .instr (.sub (xField w) (yField w))
  | 0x6 => .instr (.shr (xField w) (yField w))
  | 0x7 => .instr (.subn (xField w) (yField w))
  | 0xE => .instr (.shl (xField w) (yField w))
  | _ => .unknown w

/-- Family 0xE: the low byte selects (R75). -/
def decodeE (w : Word) : Operation :=
  match (kkField w).toNat with
  | 0x9E => .instr (.skp (xField w))
  | 0xA1 => .instr (.sknp (xField w))
  | _ => .unknown w

/-- Family 0xF: the low byte selects (R75). -/
def decodeF (w : Word) : Operation :=
  match (kkField w).toNat with
  | 0x07 => .instr (.ldVxDt (xField w))
  | 0x0A => .instr (.ldVxK (xField w))
  | 0x15 => .instr (.ldDtVx (xField w))
  | 0x18 => .instr (.ldStVx (xField w))
  | 0x1E => .instr (.addIVx (xField w))
  | 0x29 => .instr (.ldFVx (xField w))
  | 0x33 => .instr (.ldBVx (xField w))
  | 0x55 => .instr (.ldMemVx (xField w))
  | 0x65 => .instr (.ldVxMem (xField w))
  | _ => .unknown w

/-- `decode(w)` of R75: total and pure; a word that matches no row of R74 is `Unknown` (R76). -/
def decode (w : Word) : Operation :=
  match opField w with
  | 0x0 => decode0 w
  | 0x1 => .instr (.jmp (nnnField w))
  | 0x2 => .instr (.call (nnnField w))
  | 0x3 => .instr (.seVxKk (xField w) (kkField w))
  | 0x4 => .instr (.sneVxKk (xField w) (kkField w))
  | 0x5 => if nField w = 0x0 then .instr (.seVxVy (xField w) (yField w)) else .unknown w
  | 0x6 => .instr (.ldVxKk (xField w) (kkField w))
  | 0x7 => .instr (.addVxKk (xField w) (kkField w))
  | 0x8 => decode8 w
  | 0x9 => if nField w = 0x0 then .instr (.sneVxVy (xField w) (yField w)) else .unknown w
  | 0xA => .instr (.ldINnn (nnnField w))
  | 0xB => .instr (.jmpV0 (nnnField w))
  | 0xC => .instr (.rnd (xField w) (kkField w))
  | 0xD => .instr (.drw (xField w) (yField w) (nField w))
  | 0xE => decodeE w
  | 0xF => decodeF w
  | _ => .unknown w

/-! ### Decoding bytes (R52, R70) -/

/-- Why a list of bytes is no instruction. -/
inductive DecodeError where
  /-- fewer than the two bytes of an instruction word -/
  | truncated
  /-- the word matches none of the 34 instructions (R76) -/
  | unknownOpcode (w : Word)
deriving DecidableEq, Repr

/-- `(hi << 8) | lo`: the byte at the lower address is the high byte (R9, R52). -/
def assembleWord (hi lo : Byte) : Word := hi ++ lo

/-- The byte of a word stored at the lower address (R52). -/
def highByte (w : Word) : Byte := w.extractLsb' 8 8

/-- The byte of a word stored at the higher address (R52). -/
def lowByte (w : Word) : Byte := w.extractLsb' 0 8

/-- The instruction at the head of a byte list, and the bytes after it. -/
def decodeBytes : List Byte → Except DecodeError (Instr × List Byte)
  | hi :: lo :: rest =>
    match decode (assembleWord hi lo) with
    | .instr i => .ok (i, rest)
    | .unknown w => .error (.unknownOpcode w)
  | _ => .error .truncated

/-- A table word of `nbits` bits, every bit above them 0. -/
def tableWord (nbits w : Nat) : Word := BitVec.ofNat Config.instrWidth (w % 2 ^ nbits)

/-- The instruction the decoder reads from a word numbered as the opcode table numbers it, laid out in memory order. -/
def decodeTableWord (nbits w : Nat) : Option Instr :=
  match decodeBytes [highByte (tableWord nbits w), lowByte (tableWord nbits w)] with
  | .ok (i, _) => some i
  | .error _ => none

/-! ### The encoder (R72, R74) -/

/-- A register index as its 4-bit field. -/
def regBits (x : RegIdx) : BitVec 4 := BitVec.ofNat 4 x.val

/-- Format FA, `oooo aaaa aaaa aaaa` (R72). -/
def formatFA (op : BitVec 4) (nnn : Nat) : Word := op ++ BitVec.ofNat 12 nnn
/-- Format FXK, `oooo xxxx kkkk kkkk` (R72). -/
def formatFXK (op : BitVec 4) (x : RegIdx) (kk : Byte) : Word := op ++ (regBits x ++ kk)
/-- Format FXY, `oooo xxxx yyyy ssss`, and FXYN with the count in place of `ssss` (R72). -/
def formatFXY (op : BitVec 4) (x y : RegIdx) (n : BitVec 4) : Word := op ++ (regBits x ++ (regBits y ++ n))
/-- Format FXS, `oooo xxxx ssss ssss` (R72). -/
def formatFXS (op : BitVec 4) (x : RegIdx) (sel : Byte) : Word := op ++ (regBits x ++ sel)

/-- The word of an instruction (R72, R74). -/
def encode : Instr → Word
  | .cls => 0x00E0#16
  | .ret => 0x00EE#16
  | .jmp nnn => formatFA 0x1#4 nnn
  | .call nnn => formatFA 0x2#4 nnn
  | .seVxKk x kk => formatFXK 0x3#4 x kk
  | .sneVxKk x kk => formatFXK 0x4#4 x kk
  | .seVxVy x y => formatFXY 0x5#4 x y 0x0#4
  | .ldVxKk x kk => formatFXK 0x6#4 x kk
  | .addVxKk x kk => formatFXK 0x7#4 x kk
  | .ldVxVy x y => formatFXY 0x8#4 x y 0x0#4
  | .or x y => formatFXY 0x8#4 x y 0x1#4
  | .and x y => formatFXY 0x8#4 x y 0x2#4
  | .xor x y => formatFXY 0x8#4 x y 0x3#4
  | .addVxVy x y => formatFXY 0x8#4 x y 0x4#4
  | .sub x y => formatFXY 0x8#4 x y 0x5#4
  | .shr x y => formatFXY 0x8#4 x y 0x6#4
  | .subn x y => formatFXY 0x8#4 x y 0x7#4
  | .shl x y => formatFXY 0x8#4 x y 0xE#4
  | .sneVxVy x y => formatFXY 0x9#4 x y 0x0#4
  | .ldINnn nnn => formatFA 0xA#4 nnn
  | .jmpV0 nnn => formatFA 0xB#4 nnn
  | .rnd x kk => formatFXK 0xC#4 x kk
  | .drw x y n => formatFXY 0xD#4 x y (BitVec.ofNat 4 n)
  | .skp x => formatFXS 0xE#4 x 0x9E#8
  | .sknp x => formatFXS 0xE#4 x 0xA1#8
  | .ldVxDt x => formatFXS 0xF#4 x 0x07#8
  | .ldVxK x => formatFXS 0xF#4 x 0x0A#8
  | .ldDtVx x => formatFXS 0xF#4 x 0x15#8
  | .ldStVx x => formatFXS 0xF#4 x 0x18#8
  | .addIVx x => formatFXS 0xF#4 x 0x1E#8
  | .ldFVx x => formatFXS 0xF#4 x 0x29#8
  | .ldBVx x => formatFXS 0xF#4 x 0x33#8
  | .ldMemVx x => formatFXS 0xF#4 x 0x55#8
  | .ldVxMem x => formatFXS 0xF#4 x 0x65#8

/-! ### The opcode map (R74) -/

/-- One row of R74: a word belongs to the row when `w & mask == bits`. -/
structure OpcodeRow where
  bits : Word
  mask : Word
deriving DecidableEq, Repr

/-- The word matches the row (R74). -/
def OpcodeRow.holds (r : OpcodeRow) (w : Word) : Bool := w &&& r.mask == r.bits

/-- The row of R74 an instruction belongs to. -/
def Instr.opcodeRow : Instr → OpcodeRow
  | .cls => ⟨0x00E0#16, 0xFFFF#16⟩
  | .ret => ⟨0x00EE#16, 0xFFFF#16⟩
  | .jmp _ => ⟨0x1000#16, 0xF000#16⟩
  | .call _ => ⟨0x2000#16, 0xF000#16⟩
  | .seVxKk _ _ => ⟨0x3000#16, 0xF000#16⟩
  | .sneVxKk _ _ => ⟨0x4000#16, 0xF000#16⟩
  | .seVxVy _ _ => ⟨0x5000#16, 0xF00F#16⟩
  | .ldVxKk _ _ => ⟨0x6000#16, 0xF000#16⟩
  | .addVxKk _ _ => ⟨0x7000#16, 0xF000#16⟩
  | .ldVxVy _ _ => ⟨0x8000#16, 0xF00F#16⟩
  | .or _ _ => ⟨0x8001#16, 0xF00F#16⟩
  | .and _ _ => ⟨0x8002#16, 0xF00F#16⟩
  | .xor _ _ => ⟨0x8003#16, 0xF00F#16⟩
  | .addVxVy _ _ => ⟨0x8004#16, 0xF00F#16⟩
  | .sub _ _ => ⟨0x8005#16, 0xF00F#16⟩
  | .shr _ _ => ⟨0x8006#16, 0xF00F#16⟩
  | .subn _ _ => ⟨0x8007#16, 0xF00F#16⟩
  | .shl _ _ => ⟨0x800E#16, 0xF00F#16⟩
  | .sneVxVy _ _ => ⟨0x9000#16, 0xF00F#16⟩
  | .ldINnn _ => ⟨0xA000#16, 0xF000#16⟩
  | .jmpV0 _ => ⟨0xB000#16, 0xF000#16⟩
  | .rnd _ _ => ⟨0xC000#16, 0xF000#16⟩
  | .drw _ _ _ => ⟨0xD000#16, 0xF000#16⟩
  | .skp _ => ⟨0xE09E#16, 0xF0FF#16⟩
  | .sknp _ => ⟨0xE0A1#16, 0xF0FF#16⟩
  | .ldVxDt _ => ⟨0xF007#16, 0xF0FF#16⟩
  | .ldVxK _ => ⟨0xF00A#16, 0xF0FF#16⟩
  | .ldDtVx _ => ⟨0xF015#16, 0xF0FF#16⟩
  | .ldStVx _ => ⟨0xF018#16, 0xF0FF#16⟩
  | .addIVx _ => ⟨0xF01E#16, 0xF0FF#16⟩
  | .ldFVx _ => ⟨0xF029#16, 0xF0FF#16⟩
  | .ldBVx _ => ⟨0xF033#16, 0xF0FF#16⟩
  | .ldMemVx _ => ⟨0xF055#16, 0xF0FF#16⟩
  | .ldVxMem _ => ⟨0xF065#16, 0xF0FF#16⟩

/-- One instruction of each row, in the order of R74. -/
def rowSamples : List Instr :=
  [.cls, .ret, .jmp 0, .call 0, .seVxKk 0 0, .sneVxKk 0 0, .seVxVy 0 0, .ldVxKk 0 0, .addVxKk 0 0] ++
  [.ldVxVy 0 0, .or 0 0, .and 0 0, .xor 0 0, .addVxVy 0 0, .sub 0 0, .shr 0 0, .subn 0 0, .shl 0 0] ++
  [.sneVxVy 0 0, .ldINnn 0, .jmpV0 0, .rnd 0 0, .drw 0 0 0, .skp 0, .sknp 0] ++
  [.ldVxDt 0, .ldVxK 0, .ldDtVx 0, .ldStVx 0, .addIVx 0, .ldFVx 0, .ldBVx 0, .ldMemVx 0, .ldVxMem 0]

/-- The 34 rows of R74. -/
def opcodeRows : List OpcodeRow := rowSamples.map Instr.opcodeRow

/-! ### The assembly syntax (R81, log entry 28) -/

/-- The lowest `digits` hexadecimal digits of `n`, most significant first. -/
def hexDigits : Nat → Nat → List Char
  | 0, _ => []
  | digits + 1, n => hexDigits digits (n / 16) ++ [(Nat.digitChar (n % 16)).toUpper]

/-- A number as R81 writes it: hexadecimal with a `0x` prefix, as many digits as its field holds. -/
def hexNumber (digits n : Nat) : String := "0x" ++ String.ofList (hexDigits digits n)

/-- `V0` to `VF` (R81). -/
def regName (x : RegIdx) : String := "V" ++ String.ofList (hexDigits 1 x.val)

/-- An instruction in the syntax of R81, the `Vy` of `SHR` and `SHL` written out. -/
def Instr.assembly : Instr → String
  | .cls => "CLS"
  | .ret => "RET"
  | .jmp nnn => "JMP " ++ hexNumber 3 nnn
  | .call nnn => "CALL " ++ hexNumber 3 nnn
  | .seVxKk x kk => "SE " ++ regName x ++ ", " ++ hexNumber 2 kk.toNat
  | .sneVxKk x kk => "SNE " ++ regName x ++ ", " ++ hexNumber 2 kk.toNat
  | .seVxVy x y => "SE " ++ regName x ++ ", " ++ regName y
  | .ldVxKk x kk => "LD " ++ regName x ++ ", " ++ hexNumber 2 kk.toNat
  | .addVxKk x kk => "ADD " ++ regName x ++ ", " ++ hexNumber 2 kk.toNat
  | .ldVxVy x y => "LD " ++ regName x ++ ", " ++ regName y
  | .or x y => "OR " ++ regName x ++ ", " ++ regName y
  | .and x y => "AND " ++ regName x ++ ", " ++ regName y
  | .xor x y => "XOR " ++ regName x ++ ", " ++ regName y
  | .addVxVy x y => "ADD " ++ regName x ++ ", " ++ regName y
  | .sub x y => "SUB " ++ regName x ++ ", " ++ regName y
  | .shr x y => "SHR " ++ regName x ++ ", " ++ regName y
  | .subn x y => "SUBN " ++ regName x ++ ", " ++ regName y
  | .shl x y => "SHL " ++ regName x ++ ", " ++ regName y
  | .sneVxVy x y => "SNE " ++ regName x ++ ", " ++ regName y
  | .ldINnn nnn => "LD I, " ++ hexNumber 3 nnn
  | .jmpV0 nnn => "JMP V0, " ++ hexNumber 3 nnn
  | .rnd x kk => "RND " ++ regName x ++ ", " ++ hexNumber 2 kk.toNat
  | .drw x y n => "DRW " ++ regName x ++ ", " ++ regName y ++ ", " ++ hexNumber 1 n
  | .skp x => "SKP " ++ regName x
  | .sknp x => "SKNP " ++ regName x
  | .ldVxDt x => "LD " ++ regName x ++ ", DT"
  | .ldVxK x => "LD " ++ regName x ++ ", K"
  | .ldDtVx x => "LD DT, " ++ regName x
  | .ldStVx x => "LD ST, " ++ regName x
  | .addIVx x => "ADD I, " ++ regName x
  | .ldFVx x => "LD F, " ++ regName x
  | .ldBVx x => "LD B, " ++ regName x
  | .ldMemVx x => "LD [I], " ++ regName x
  | .ldVxMem x => "LD " ++ regName x ++ ", [I]"

end Sys2Proof
end

