-- ==== Sys2Proof/Machine/Params.lean ====
section
/-! DEFINITION. The defaults of the parameters that R5 and D19 leave open to audit: the font bytes, the shift source,
the sprite bit order and the frame period. -/

namespace Sys2Proof.Machine

/-- `FONT_TABLE`: the default bytes of 93_implementation_defined.md item G1 (D20), digit `d` at `5*d`.
PRESUMED, log entry 2: the source does not give the bytes. -/
def fontTable : List Byte :=
  [0xF0, 0x90, 0x90, 0x90, 0xF0] ++ [0x20, 0x60, 0x20, 0x20, 0x70] ++
  [0xF0, 0x10, 0xF0, 0x80, 0xF0] ++ [0xF0, 0x10, 0xF0, 0x10, 0xF0] ++
  [0x90, 0x90, 0xF0, 0x10, 0x10] ++ [0xF0, 0x80, 0xF0, 0x10, 0xF0] ++
  [0xF0, 0x80, 0xF0, 0x90, 0xF0] ++ [0xF0, 0x10, 0x20, 0x40, 0x40] ++
  [0xF0, 0x90, 0xF0, 0x90, 0xF0] ++ [0xF0, 0x90, 0xF0, 0x10, 0xF0] ++
  [0xF0, 0x90, 0xF0, 0x90, 0x90] ++ [0xE0, 0x90, 0xE0, 0x90, 0xE0] ++
  [0xF0, 0x80, 0x80, 0x80, 0xF0] ++ [0xE0, 0x90, 0x90, 0x90, 0xE0] ++
  [0xF0, 0x80, 0xF0, 0x80, 0xF0] ++ [0xF0, 0x80, 0xF0, 0x80, 0x80]

/-- `SHIFT_SOURCE`: the default `Vx` (R5, R161, D29). DESIGN CHOICE, log entry 3. -/
def shiftSource : ShiftSource := .vx

/-- `SPRITE_BIT_ORDER`: the default, most significant bit leftmost (R5, R213, D29). DESIGN CHOICE, log entry 3. -/
def spriteBitOrder : SpriteBitOrder := .msbLeft

/-- `FRAME_PERIOD` = 1000/60 ms, exactly (R5, R191, D7). DESIGN CHOICE, log entry 4. -/
def framePeriod : Millis := ⟨1000 / 60, by norm_num⟩

/-- The parameters at their defaults (R5). -/
def defaultParams : Params where
  shiftSource := shiftSource
  spriteBitOrder := spriteBitOrder
  framePeriod := framePeriod
  font := ⟨fontTable.toArray, rfl⟩

end Sys2Proof.Machine
end

