-- ==== Sys2Proof/Machine/Memory.lean ====
section
/-! DEFINITION. The memory array (R50): a list of (address, byte) pairs in one canonical form, its reset contents,
reading and writing one byte. Addresses are naturals "formed in full" (R10); the bounds of R54 are checked by the
instructions before any access. -/

namespace Sys2Proof.Machine

/-- Main memory (R50): the cells that differ from the reset contents, by rising address. -/
abbrev Memory := List Host.Cell

/-- What an unlisted address reads as: the reset contents of R33 and R57, `FONT_TABLE` at `FONT_BASE` and 0 elsewhere. -/
def Memory.unlisted (a : Nat) : Byte :=
  if Config.fontBase ≤ a then fontTable.getD (a - Config.fontBase) 0 else 0

/-- The canonical form: addresses strictly rising and inside the array, no entry equal to the reset contents. -/
abbrev Memory.wf (m : Memory) : Prop :=
  m.Pairwise (fun c d => c.1 < d.1) ∧ ∀ c ∈ m, c.1 < Config.ramSize ∧ c.2 ≠ Memory.unlisted c.1

/-- The byte at address `a`: the byte last written there, else its reset contents (R56). -/
def Memory.read : Memory → Nat → Byte
  | [], a => Memory.unlisted a
  | c :: m, a => if c.1 = a then c.2 else Memory.read m a

/-- The cell for byte `b` at `a` in front of `m`, or `m` alone where `b` is the reset contents of `a`. -/
def Memory.cons (a : Nat) (b : Byte) (m : Memory) : Memory :=
  if b = Memory.unlisted a then m else (a, b) :: m

/-- The cell for byte `b` at `a` put in its place by rising address, in a list without a cell for `a`. -/
def Memory.place : Memory → Nat → Byte → Memory
  | [], a, b => Memory.cons a b []
  | c :: m, a, b => if a < c.1 then Memory.cons a b (c :: m) else c :: Memory.place m a b

/-- Store byte `b` at address `a` (R56): the old cell is taken out, the new one put in its place. -/
def Memory.write (m : Memory) (a : Nat) (b : Byte) : Memory :=
  Memory.place (m.filter fun c => c.1 != a) a b

/-- Store the bytes of a list at increasing addresses from `a` (R52, R176). -/
def Memory.writeBytes (m : Memory) (a : Nat) : List Byte → Memory
  | [] => m
  | b :: bs => Memory.writeBytes (m.write a b) (a + 1) bs

/-- The `n` bytes at increasing addresses from `a` (R52, R176). -/
def Memory.readBytes (m : Memory) (a n : Nat) : List Byte :=
  (List.range n).map fun k => m.read (a + k)

end Sys2Proof.Machine
end

