-- ==== Sys2Proof/Machine/State.lean ====
section
/-! DEFINITION. The machine's state (R20), the fault causes and the fault record (R220, R222), the outcome's
reasons, and the state after reset (R33). -/

namespace Sys2Proof.Machine

/-- The fault causes of R220. Every one is raised inside a step as the spec describes it: the step answers a NEXT
state in which the record is latched in `State.fault` (R103, R104, R222). No step ends in `Host.Outcome.fault`, so no
behaviour of the spec is cut off. -/
inductive Fault where
  /-- Raised by fetch, `jump`, the skips, `Bnnn`, `Dxyn`, `Fx1E`, `Fx33`, `Fx55`, `Fx65` (R221) on an address at or
  above `RAM_SIZE`. Safe where the spec decides it (D13): the model latches where other hardware may go on. -/
  | addressFault
  /-- Raised by `2nnn` when `SP == 16` (R108, R122). Safe: stated by the spec. -/
  | stackOverflow
  /-- Raised by `00EE` when `SP == 0` (R109, R120). Safe: stated by the spec. -/
  | stackUnderflow
  /-- Raised by a word that is none of the 34 instructions (R76, R77). Safe: stated by the spec. -/
  | unknownOpcode
  /-- Raised by `Ex9E` and `ExA1` when `Vx > 15` (R201, R202, D9). Safe: the spec's own decision. -/
  | keyIndexFault
deriving DecidableEq, Repr

/-- The numeric code of a fault (R220, D27). -/
def Fault.code : Fault → Nat
  | .addressFault => 0
  | .stackOverflow => 1
  | .stackUnderflow => 2
  | .unknownOpcode => 3
  | .keyIndexFault => 4

/-- The reasons a step has no meaning. -/
inductive Refusal where
  /-- `exec`'s arm of an instruction without a meaning raises it; no arm does. Safe: the model stops. -/
  | notModelled (mnemonic : String)
deriving DecidableEq, Repr

/-- The fault record of R222. Its `code` is `FaultRecord.code`, a function of `kind`. -/
structure FaultRecord where
  kind : Fault
  /-- the address of the faulting instruction; for a fetch fault, the `PC` fetched from -/
  pc : PcVal
  /-- the fetched word; none for a fetch fault -/
  word : Option Word
  /-- `AddressFault` only: the address the failed check tested, formed in full -/
  target : Option Nat
  /-- `KeyIndexFault` only: the value of `Vx` -/
  key : Option RegVal
deriving DecidableEq, Repr

/-- The field `code` of R222. -/
def FaultRecord.code (r : FaultRecord) : Nat := r.kind.code

/-- The pixels of the reference display, `screen[py][px]`, true for lit (R213). -/
abbrev Screen := Vector (Vector Bool Config.displayW) Config.displayH

/-- The state record of R20; after it the pixels of the reference display (R213), the model's own fields for the
inputs of a tick (R112), and the configuration (R5). -/
structure State where
  /-- `V`, the register file (R21) -/
  v : Vector RegVal Config.numRegs
  /-- `I`, the address register (R26) -/
  i : IVal
  /-- `PC` (R25) -/
  pc : PcVal
  /-- the return addresses (R27) -/
  stack : Vector StackEntry Config.stackDepth
  /-- `SP`, the stack entries in use, 0 to 16 (R28) -/
  sp : Fin (Config.stackDepth + 1)
  /-- `DT` (R29) -/
  dt : TimerVal
  /-- `ST` (R29) -/
  st : TimerVal
  /-- `halted_on_key`: none while Running, the target register while WaitingForKey (R30, R105) -/
  haltedOnKey : Option RegIdx
  /-- `acc`, the frame-rate accumulator (R31) -/
  acc : Millis
  /-- `memory` (R50) -/
  mem : Memory
  /-- the sticky fault latch (R32) -/
  fault : Option FaultRecord
  /-- the reference display's pixels (R213): state of the device behind the display port, not of the block -/
  screen : Screen
  /-- the model's own: the inputs of the tick in progress (R112), written at its start -/
  ports : TickInput
  /-- the model's own: the inputs of the coming ticks that the outside has already fixed, oldest first -/
  inputs : List TickInput
  /-- the model's own: how many ticks took their inputs from the free values of Config -/
  draws : Nat
  /-- the parameters the machine is configured with (R5); no step writes them -/
  params : Params
deriving DecidableEq, Repr

/-- The reset state (R33, R260): registers, stack, timers 0; `PC = PROGRAM_START`; memory at its reset contents;
Running; no fault; `acc` 0 (D25). The display is blank (D15). The model's own fields: no tick has run, so `ports`
holds a placeholder that the first step overwrites; no input is fixed. The parameters are at their defaults. -/
def State.reset : State where
  v := Vector.replicate Config.numRegs 0
  i := 0
  pc := BitVec.ofNat Config.pcWidth Config.programStart
  stack := Vector.replicate Config.stackDepth 0
  sp := 0
  dt := 0
  st := 0
  haltedOnKey := none
  acc := ⟨0, le_refl 0⟩
  mem := []
  fault := none
  screen := Vector.replicate Config.displayH (Vector.replicate Config.displayW false)
  ports := ⟨⟨0, le_refl 0⟩, 0, [], none⟩
  inputs := []
  draws := 0
  params := defaultParams

end Sys2Proof.Machine
end

