-- ==== Sys2Proof/Machine/Ops.lean ====
section
/-! DEFINITION. The named operations over registers and memory, taking a fault as one operation (R103, R104, R222),
and the shared primitives of 40_cycle.md: `jump`, `push_return`, `pop_return`, `skip`. There is no return from a
fault (R225): only the driver's reset clears the latch. -/

namespace Sys2Proof.Machine

/-- What a meaning answers. -/
abbrev Result := Host.Outcome State Fault Refusal

/-! ### Reads and writes -/

/-- `V[x]` (R9). -/
def State.reg (s : State) (x : RegIdx) : RegVal := s.v[x]
/-- `V[x] <- b` (R9, R21): any register holds any byte. -/
def State.setReg (s : State) (x : RegIdx) (b : RegVal) : State := { s with v := s.v.set x b }
/-- The index of `VF`, the flag output (R22). -/
def vf : RegIdx := 0xF
/-- The byte at address `a` (`MemRead(a, 1)`, R9). -/
def State.byteAt (s : State) (a : Nat) : Byte := s.mem.read a
/-- `I <- w`. -/
def State.setI (s : State) (w : IVal) : State := { s with i := w }
/-- `PC <- w`. -/
def State.setPc (s : State) (w : PcVal) : State := { s with pc := w }
/-- `DT <- b`. -/
def State.setDt (s : State) (b : TimerVal) : State := { s with dt := b }
/-- `ST <- b`. -/
def State.setSt (s : State) (b : TimerVal) : State := { s with st := b }
/-- `halted_on_key <- h`. -/
def State.setHalted (s : State) (h : Option RegIdx) : State := { s with haltedOnKey := h }
/-- Store bytes at increasing addresses (`MemWrite`, R9). -/
def State.storeBytes (s : State) (a : Nat) (bs : List Byte) : State := { s with mem := s.mem.writeBytes a bs }
/-- The stack and its pointer. -/
def State.setStack (s : State) (st : Vector StackEntry Config.stackDepth) (sp : Fin (Config.stackDepth + 1)) : State :=
  { s with stack := st, sp := sp }
/-- The pixels of the display. -/
def State.setScreen (s : State) (sc : Screen) : State := { s with screen := sc }

/-! ### Faults -/

/-- What an operation comes to: the state it leaves, or the record of the fault it raises. -/
abbrev Attempt := Except FaultRecord State

/-- The record of a fault of instruction `i` (R222): `PC` has advanced past it (R102), so its address is `PC - 2`,
and the fetched word is the word of `i`. -/
def faultOf (i : Instr) (kind : Fault) (target : Option Nat) (key : Option RegVal) (s : State) : FaultRecord where
  kind := kind
  pc := s.pc - BitVec.ofNat Config.pcWidth Config.instrBytes
  word := some (encode i)
  target := target
  key := key

/-- Taking a fault: the record is latched and nothing else changes (R103, R223). There is no handler (R224). -/
def latch (r : FaultRecord) (s : State) : State := { s with fault := some r }

/-- An instruction completes, or it has no effect of its own and its fault is latched (R104). -/
def complete (s : State) (a : Attempt) : Result :=
  .next (match a with
    | .ok t => t
    | .error r => latch r s)

/-! ### The primitives of 40_cycle.md, section 3 -/

/-- `jump(addr)` of R107, for instruction `i`. -/
def jump (i : Instr) (addr : Nat) (s : State) : Attempt :=
  if Config.ramSize ≤ addr then .error (faultOf i .addressFault (some addr) none s)
  else .ok (s.setPc (BitVec.ofNat Config.pcWidth addr))

/-- `push_return(addr)` of R108, for instruction `i`. -/
def pushReturn (i : Instr) (addr : PcVal) (s : State) : Attempt :=
  if h : s.sp.val < Config.stackDepth then
    .ok (s.setStack (s.stack.set s.sp.val addr h) ⟨s.sp.val + 1, Nat.succ_lt_succ h⟩)
  else .error (faultOf i .stackOverflow none none s)

/-- `pop_return()` of R109, for instruction `i`: the popped address and the state after it. The entry keeps its value (R27). -/
def popReturn (i : Instr) (s : State) : Except FaultRecord (StackEntry × State) :=
  if h : s.sp.val = 0 then .error (faultOf i .stackUnderflow none none s)
  else
    have hlt : s.sp.val - 1 < Config.stackDepth := by
      have := s.sp.isLt
      simp only [Config.stackDepth] at *
      omega
    .ok (s.stack[s.sp.val - 1], s.setStack s.stack ⟨s.sp.val - 1, Nat.lt_succ_of_lt hlt⟩)

/-- `skip(cond)` of R110, for instruction `i`: the target `PC + 2` is formed in full. -/
def skip (i : Instr) (cond : Bool) (s : State) : Attempt :=
  if cond then jump i (s.pc.toNat + Config.instrBytes) s else .ok s

end Sys2Proof.Machine
end

