-- ==== Sys2Proof/Machine/Operands.lean ====
section
/-! DEFINITION. The operand forms of R73 and R176: registers, the shift source of R161, effective addresses formed in
full, the answers of the ports, and blocks of registers. An immediate is used as it stands. -/

namespace Sys2Proof.Machine

/-- The effective address of the `k`-th byte an instruction moves, `I + k` formed in full (R176). -/
def effectiveAddress (s : State) (k : Nat) : Nat := s.i.toNat + k

/-- The shift source of R161: `V[x]`, or `V[y]` under the legacy convention. -/
def shiftOperand (src : ShiftSource) (x y : RegIdx) (s : State) : RegVal :=
  match src with
  | .vx => s.reg x
  | .vy => s.reg y

/-- `random_byte()` (R143): this tick's answer. -/
def randomByte (s : State) : Byte := s.ports.randomByte

/-- `is_key_down(k)` (R200): this tick's answer. -/
def isKeyDown (k : KeyCode) (s : State) : Bool := decide (k ∈ s.ports.keysDown)

/-- `poll_any_key_down()` (R200): this tick's answer. -/
def polledKey (s : State) : Option KeyCode := s.ports.polledKey

/-- The values of `V0` to `Vx`, in order (R174). -/
def regsUpTo (x : RegIdx) (s : State) : List Byte := s.v.toList.take (x.val + 1)

/-- `V0` to `Vx` loaded from the bytes at `a`, `a + 1`, …; the registers above `x` unchanged (R175). -/
def loadRegsUpTo (x : RegIdx) (a : Nat) (s : State) : State :=
  { s with v := Vector.ofFn fun j : RegIdx => if j ≤ x then s.byteAt (a + j.val) else s.reg j }

/-- The hundreds, tens and ones digits of a byte (R173). -/
def bcdDigits (b : RegVal) : List Byte := [b / 100#8, b / 10#8 % 10#8, b % 10#8]

end Sys2Proof.Machine
end

