-- ==== Sys2Proof/Machine/Flags.lean ====
section
/-! DEFINITION. The ALU with its flag output (R150), the flags it computes, and the write-back order of R151: the
primary result first, then the flag into `VF` (R22). -/

namespace Sys2Proof.Machine

/-- The ALU's operations (R150). -/
inductive AluOp where
  | passB | or | and | xor | add | addNf | sub | subn | shr | shl
deriving DecidableEq, Repr

/-- A flag as the byte stored in `VF`: 0x01 or 0x00 (R150). -/
def flagByte (f : Bool) : RegVal := if f then 0x01 else 0x00

/-- The carry out of an addition: `a + b > 255` on the unsigned values (R150, R156). -/
def carryOut (a b : RegVal) : Bool := decide (255 < a.toNat + b.toNat)

/-- "No borrow" of `a - b`: `a >= b` on the unsigned values (R150, R157). -/
def noBorrow (a b : RegVal) : Bool := decide (b.toNat ≤ a.toNat)

/-- The bit a right shift by one moves out: bit 0 (R150, R158). -/
def shiftedOutRight (a : RegVal) : Bool := a.getLsbD 0

/-- The bit a left shift by one moves out: bit 7 (R150, R160). -/
def shiftedOutLeft (a : RegVal) : Bool := a.getLsbD 7

/-- The result `r` of R150's table. -/
def aluResult (op : AluOp) (a b : RegVal) : RegVal :=
  match op with
  | .passB => b
  | .or => a ||| b
  | .and => a &&& b
  | .xor => a ^^^ b
  | .add => a + b
  | .addNf => a + b
  | .sub => a - b
  | .subn => b - a
  | .shr => a >>> 1
  | .shl => a <<< 1

/-- The flag `f` of R150's table; none where the operation has no flag. -/
def aluFlag (op : AluOp) (a b : RegVal) : Option Bool :=
  match op with
  | .passB => none
  | .or => none
  | .and => none
  | .xor => none
  | .add => some (carryOut a b)
  | .addNf => none
  | .sub => some (noBorrow a b)
  | .subn => some (noBorrow b a)
  | .shr => some (shiftedOutRight a)
  | .shl => some (shiftedOutLeft a)

/-- `if f != none: V[0xF] <- f` (R151). -/
def writeFlag (f : Option Bool) (s : State) : State :=
  match f with
  | none => s
  | some b => s.setReg vf (flagByte b)

/-- R151: run the ALU on operands already read, write `V[x]`, then the flag. -/
def runAlu (op : AluOp) (x : RegIdx) (a b : RegVal) (s : State) : State :=
  writeFlag (aluFlag op a b) (s.setReg x (aluResult op a b))

end Sys2Proof.Machine
end

