-- ==== Sys2Proof/Machine/Alu.lean ====
section
/-! DEFINITION. The meanings of 43_alu.md, the register-register family `8xy_`: none writes `PC`, none can fault. -/

namespace Sys2Proof.Machine

/-- `8xy0` LD Vx, Vy (R152). -/
def execLdVxVy (x y : RegIdx) (s : State) : Result :=
  .next (runAlu .passB x (s.reg x) (s.reg y) s)

/-- `8xy1` OR Vx, Vy (R153). -/
def execOr (x y : RegIdx) (s : State) : Result :=
  .next (runAlu .or x (s.reg x) (s.reg y) s)

/-- `8xy2` AND Vx, Vy (R154). -/
def execAnd (x y : RegIdx) (s : State) : Result :=
  .next (runAlu .and x (s.reg x) (s.reg y) s)

/-- `8xy3` XOR Vx, Vy (R155). -/
def execXor (x y : RegIdx) (s : State) : Result :=
  .next (runAlu .xor x (s.reg x) (s.reg y) s)

/-- `8xy4` ADD Vx, Vy (R156). -/
def execAddVxVy (x y : RegIdx) (s : State) : Result :=
  .next (runAlu .add x (s.reg x) (s.reg y) s)

/-- `8xy5` SUB Vx, Vy (R157). -/
def execSub (x y : RegIdx) (s : State) : Result :=
  .next (runAlu .sub x (s.reg x) (s.reg y) s)

/-- `8xy6` SHR Vx (R158), the operand chosen by `SHIFT_SOURCE` (R161). -/
def execShr (x y : RegIdx) (s : State) : Result :=
  .next (runAlu .shr x (shiftOperand s.params.shiftSource x y s) (s.reg y) s)

/-- `8xy7` SUBN Vx, Vy (R159). -/
def execSubn (x y : RegIdx) (s : State) : Result :=
  .next (runAlu .subn x (s.reg x) (s.reg y) s)

/-- `8xyE` SHL Vx (R160), the operand chosen by `SHIFT_SOURCE` (R161). -/
def execShl (x y : RegIdx) (s : State) : Result :=
  .next (runAlu .shl x (shiftOperand s.params.shiftSource x y s) (s.reg y) s)

end Sys2Proof.Machine
end

