-- ==== Sys2Proof/Machine/ControlFlow.lean ====
section
/-! DEFINITION. The meanings of 41_control_flow.md: return, jumps, call, register and immediate skips. -/

namespace Sys2Proof.Machine

/-- `00EE` RET (R120): `PC <- pop_return()`; the popped address is not range-checked (D12). -/
def execRet (s : State) : Result :=
  complete s ((popReturn .ret s).map fun p => p.2.setPc p.1)

/-- `1nnn` JMP (R121): `jump(nnn)`. -/
def execJmp (nnn : Nat) (s : State) : Result :=
  complete s (jump (.jmp nnn) nnn s)

/-- `2nnn` CALL (R122): `push_return(PC)`, then `jump(nnn)`. -/
def execCall (nnn : Nat) (s : State) : Result :=
  complete s ((pushReturn (.call nnn) s.pc s).bind (jump (.call nnn) nnn))

/-- `3xkk` SE Vx, kk (R123): `skip(V[x] == kk)`. -/
def execSeVxKk (x : RegIdx) (kk : Byte) (s : State) : Result :=
  complete s (skip (.seVxKk x kk) (s.reg x == kk) s)

/-- `4xkk` SNE Vx, kk (R124): `skip(V[x] != kk)`. -/
def execSneVxKk (x : RegIdx) (kk : Byte) (s : State) : Result :=
  complete s (skip (.sneVxKk x kk) (s.reg x != kk) s)

/-- `5xy0` SE Vx, Vy (R125): `skip(V[x] == V[y])`. -/
def execSeVxVy (x y : RegIdx) (s : State) : Result :=
  complete s (skip (.seVxVy x y) (s.reg x == s.reg y) s)

/-- `9xy0` SNE Vx, Vy (R126): `skip(V[x] != V[y])`. -/
def execSneVxVy (x y : RegIdx) (s : State) : Result :=
  complete s (skip (.sneVxVy x y) (s.reg x != s.reg y) s)

/-- `Bnnn` JMP V0, nnn (R127): `jump(nnn + V[0])`, the sum formed in full. -/
def execJmpV0 (nnn : Nat) (s : State) : Result :=
  complete s (jump (.jmpV0 nnn) (nnn + (s.reg 0).toNat) s)

end Sys2Proof.Machine
end

