-- ==== Sys2Proof/Machine/Screen.lean ====
section
/-! DEFINITION. The reference display behind the display port (R210, R213): `clear_screen` and `draw_sprite`. -/

namespace Sys2Proof.Machine

/-- A pixel position: column, row. -/
abbrev Pixel := Fin Config.displayW × Fin Config.displayH

/-- `screen[py][px]` (R213). -/
def Screen.pixel (sc : Screen) (p : Pixel) : Bool := sc[p.2][p.1]

/-- `screen[py][px] <- screen[py][px] XOR 1` (R213). -/
def Screen.toggle (sc : Screen) (p : Pixel) : Screen := sc.set p.2 (sc[p.2].set p.1 (!sc[p.2][p.1]))

/-- `clear_screen()`: every pixel unlit (R213). -/
def clearScreen : Screen := Vector.replicate Config.displayH (Vector.replicate Config.displayW false)

/-- The bit of a row byte drawn at column offset `c` (R213). -/
def spriteBit (order : SpriteBitOrder) (row : Byte) (c : Nat) : Bool :=
  match order with
  | .msbLeft => row.getLsbD (7 - c)
  | .lsbLeft => row.getLsbD c

/-- The pixel of row `r`, column `c` of a sprite at `(x, y)`: each coordinate wraps (R213, D14). -/
def spritePixel (x y : Nat) (r c : Nat) : Pixel :=
  (Fin.ofNat Config.displayW (x + c), Fin.ofNat Config.displayH (y + r))

/-- The pixels the set bits of row `r` fall on, left to right: a sprite is 8 pixels wide (R212, R213). -/
def rowPixels (order : SpriteBitOrder) (x y r : Nat) (row : Byte) : List Pixel :=
  ((List.range 8).filter (spriteBit order row)).map (spritePixel x y r)

/-- The pixels the set bits of the rows fall on, from row `r` down. -/
def spritePixels (order : SpriteBitOrder) (x y r : Nat) : List Byte → List Pixel
  | [] => []
  | row :: rows => rowPixels order x y r row ++ spritePixels order x y (r + 1) rows

/-- Toggle the pixels one after another; true when one of them was lit (R213's `collision`). -/
def togglePixels (sc : Screen) : List Pixel → Screen × Bool
  | [] => (sc, false)
  | p :: ps =>
    let rest := togglePixels (sc.toggle p) ps
    (rest.1, sc.pixel p || rest.2)

/-- `draw_sprite(x, y, rows)` of R213: the screen after it and the collision answer. -/
def drawSprite (order : SpriteBitOrder) (x y : RegVal) (rows : List Byte) (sc : Screen) : Screen × Bool :=
  togglePixels sc (spritePixels order x.toNat y.toNat 0 rows)

end Sys2Proof.Machine
end

