-- ==== Sys2Proof/Machine/Display.lean ====
section
/-! DEFINITION. The meanings of 47_display.md: clear the display, draw a sprite. -/

namespace Sys2Proof.Machine

/-- `00E0` CLS (R211): `clear_screen()`. -/
def execCls (s : State) : Result :=
  .next (s.setScreen clearScreen)

/-- Draw the `n` rows at `I` at `(Vx, Vy)` and write the collision flag into `VF` (R212). -/
def drawAtI (x y : RegIdx) (n : Nat) (s : State) : State :=
  let rows := s.mem.readBytes (effectiveAddress s 0) n
  let drawn := drawSprite s.params.spriteBitOrder (s.reg x) (s.reg y) rows s.screen
  (s.setScreen drawn.1).setReg vf (flagByte drawn.2)

/-- `Dxyn` DRW Vx, Vy, n (R212): `AddressFault` when `I + n > RAM_SIZE`, before the display is called. -/
def execDrw (x y : RegIdx) (n : Nat) (s : State) : Result :=
  complete s
    (if Config.ramSize < effectiveAddress s n then
      .error (faultOf (.drw x y n) .addressFault (some (effectiveAddress s n)) none s)
    else .ok (drawAtI x y n s))

end Sys2Proof.Machine
end

