-- ==== Sys2Proof/Machine/IndexMemory.lean ====
section
/-! DEFINITION. The meanings of 44_index_memory.md: the address register and memory transfer. Every range check is
made before any write (R104, D13). -/

namespace Sys2Proof.Machine

/-- The check `last < RAM_SIZE` of an instruction's highest address (R54, R173, R174, R175): the access runs, or
`AddressFault` is raised with that address. -/
def checked (i : Instr) (last : Nat) (access : State) (s : State) : Attempt :=
  if Config.ramSize ≤ last then .error (faultOf i .addressFault (some last) none s) else .ok access

/-- `Annn` LD I, nnn (R170): `I <- zext_16(nnn)`. -/
def execLdINnn (nnn : Nat) (s : State) : Result :=
  .next (s.setI (BitVec.ofNat Config.iWidth nnn))

/-- `Fx1E` ADD I, Vx (R171): the sum is formed in full and checked before `I` is written (D13). -/
def execAddIVx (x : RegIdx) (s : State) : Result :=
  let t := effectiveAddress s (s.reg x).toNat
  complete s (checked (.addIVx x) t (s.setI (BitVec.ofNat Config.iWidth t)) s)

/-- `Fx29` LD F, Vx (R172): `I <- V[x] * 5`; `FONT_BASE` is 0, and `Vx` is not masked. -/
def execLdFVx (x : RegIdx) (s : State) : Result :=
  .next (s.setI (BitVec.ofNat Config.iWidth (Config.fontBase + (s.reg x).toNat * Config.fontGlyphBytes)))

/-- `Fx33` LD B, Vx (R173): the three decimal digits at `I`, `I + 1`, `I + 2`. -/
def execLdBVx (x : RegIdx) (s : State) : Result :=
  complete s (checked (.ldBVx x) (effectiveAddress s 2)
    (s.storeBytes (effectiveAddress s 0) (bcdDigits (s.reg x))) s)

/-- `Fx55` LD [I], Vx (R174): store `V0` to `Vx` at `I` to `I + x`; `I` unchanged (D10). -/
def execLdMemVx (x : RegIdx) (s : State) : Result :=
  complete s (checked (.ldMemVx x) (effectiveAddress s x.val)
    (s.storeBytes (effectiveAddress s 0) (regsUpTo x s)) s)

/-- `Fx65` LD Vx, [I] (R175): load `V0` to `Vx` from `I` to `I + x`; `I` unchanged (D10). -/
def execLdVxMem (x : RegIdx) (s : State) : Result :=
  complete s (checked (.ldVxMem x) (effectiveAddress s x.val)
    (loadRegsUpTo x (effectiveAddress s 0) s) s)

end Sys2Proof.Machine
end

