-- ==== Sys2Proof/Machine/Input.lean ====
section
/-! DEFINITION. 46_input.md: the key skips, entering the wait for a key, and the WaitingForKey step (R204). -/

namespace Sys2Proof.Machine

/-- The body of R201 and R202: `KeyIndexFault` for a code the keypad does not take (D9), else a skip on the key's state. -/
def keySkip (i : Instr) (x : RegIdx) (wanted : Bool) (s : State) : Attempt :=
  if h : (s.reg x).toNat < Config.keyCount then skip i (isKeyDown ⟨(s.reg x).toNat, h⟩ s == wanted) s
  else .error (faultOf i .keyIndexFault none (some (s.reg x)) s)

/-- `Ex9E` SKP Vx (R201): skip if the key is down. -/
def execSkp (x : RegIdx) (s : State) : Result :=
  complete s (keySkip (.skp x) x true s)

/-- `ExA1` SKNP Vx (R202): skip if the key is up. -/
def execSknp (x : RegIdx) (s : State) : Result :=
  complete s (keySkip (.sknp x) x false s)

/-- `Fx0A` LD Vx, K (R203): the Executor enters WaitingForKey; nothing is polled in this tick (D8). -/
def execLdVxK (x : RegIdx) (s : State) : Result :=
  .next (s.setHalted (some x))

/-- `key_wait_step()` of R204, `x` being the register in `halted_on_key`. -/
def keyWaitStep (x : RegIdx) (s : State) : State :=
  match polledKey s with
  | some k => (s.setReg x (BitVec.ofNat Config.regWidth k.val)).setHalted none
  | none => s

end Sys2Proof.Machine
end

