-- ==== Sys2Proof/Machine/RegisterLoad.lean ====
section
/-! DEFINITION. The meanings of 42_register_load.md: load immediate, add immediate without carry, random byte. -/

namespace Sys2Proof.Machine

/-- `6xkk` LD Vx, kk (R140). -/
def execLdVxKk (x : RegIdx) (kk : Byte) (s : State) : Result :=
  .next (s.setReg x kk)

/-- `7xkk` ADD Vx, kk (R141): the ALU's add without flag. -/
def execAddVxKk (x : RegIdx) (kk : Byte) (s : State) : Result :=
  .next (runAlu .addNf x (s.reg x) kk s)

/-- `Cxkk` RND Vx, kk (R142): one answer of the random port, masked. -/
def execRnd (x : RegIdx) (kk : Byte) (s : State) : Result :=
  .next (s.setReg x (randomByte s &&& kk))

end Sys2Proof.Machine
end

