-- ==== Sys2Proof/Machine/Timers.lean ====
section
/-! DEFINITION. 45_timers.md: the countdown timer unit (R190), the frame-rate timer (R191) and the timer instructions. -/

namespace Sys2Proof.Machine

/-- The sum of two times. -/
def addMillis (a b : Millis) : Millis := ⟨a.val + b.val, add_nonneg a.nonneg b.nonneg⟩

/-- `FRAME_PERIOD` has passed: `acc >= FRAME_PERIOD` (R191). -/
def periodPassed (period acc : Millis) : Bool := decide (period.val ≤ acc.val)

/-- The accumulator after the check of R191: one period is taken off where it has passed, the excess is kept (D7). -/
def takePeriod (period acc : Millis) : Millis :=
  if h : period.val ≤ acc.val then ⟨acc.val - period.val, sub_nonneg.mpr h⟩ else acc

/-- One timer on a frame tick: decremented if it is not zero (R190). -/
def countDown (b : TimerVal) : TimerVal := if b = 0 then 0 else b - 1

/-- The countdown timer unit with its `frame_tick` input (R190). -/
def timerUnit (frameTick : Bool) (s : State) : State :=
  { s with dt := if frameTick then countDown s.dt else s.dt
           st := if frameTick then countDown s.st else s.st }

/-- `timer_phase(elapsed_ms)` of R191, `elapsed_ms` being the input of this tick. -/
def timerPhase (s : State) : State :=
  let acc := addMillis s.acc s.ports.elapsed
  { timerUnit (periodPassed s.params.framePeriod acc) s with acc := takePeriod s.params.framePeriod acc }

/-- `Fx07` LD Vx, DT (R193). -/
def execLdVxDt (x : RegIdx) (s : State) : Result :=
  .next (s.setReg x s.dt)

/-- `Fx15` LD DT, Vx (R194). -/
def execLdDtVx (x : RegIdx) (s : State) : Result :=
  .next (s.setDt (s.reg x))

/-- `Fx18` LD ST, Vx (R195). -/
def execLdStVx (x : RegIdx) (s : State) : Result :=
  .next (s.setSt (s.reg x))

end Sys2Proof.Machine
end

