-- ==== Sys2Proof/Machine/Tick.lean ====
section
/-! DEFINITION. The parts of a tick around the instruction (R100): taking the tick's inputs (R112), the fetch (R101),
the `Unknown` operation (R76), and placing a word where the next fetch reads it. -/

namespace Sys2Proof.Machine

/-- A time from two naturals; every non-negative rational is one. -/
def millisOf (num den : Nat) : Millis := ⟨(num : Rat) / (den : Rat), div_nonneg (Nat.cast_nonneg num) (Nat.cast_nonneg den)⟩

/-- The `n`-th undetermined inputs: free values (R112). -/
def freeInput (n : Nat) : TickInput where
  elapsed := millisOf (Config.freeElapsedNum n) (Config.freeElapsedDen n)
  randomByte := Config.freeRandomByte n
  keysDown := Config.freeKeysDown n
  polledKey := Config.freePolledKey n

/-- The inputs of this tick go into `ports`: the oldest the outside has fixed, else free values. -/
def takeInputs (s : State) : State :=
  match s.inputs with
  | inp :: rest => { s with ports := inp, inputs := rest }
  | [] => { s with ports := freeInput s.draws, draws := s.draws + 1 }

/-- What a fetch comes to. -/
inductive Fetched where
  | word (w : Word) (s : State)
  | faulted (s : State)
deriving DecidableEq, Repr

/-- The record of a fetch fault: no word, `PC` unchanged, target `PC + 2` (R101, R222, 90_conflicts.md C10). -/
def fetchFault (s : State) : FaultRecord where
  kind := .addressFault
  pc := s.pc
  word := none
  target := some (s.pc.toNat + Config.instrBytes)
  key := none

/-- `fetch()` of R101: big-endian, `PC` advanced by 2, the bound checked before the read. -/
def fetch (s : State) : Fetched :=
  if Config.ramSize < s.pc.toNat + Config.instrBytes then .faulted (latch (fetchFault s) s)
  else .word (assembleWord (s.byteAt s.pc.toNat) (s.byteAt (s.pc.toNat + 1)))
    (s.setPc (s.pc + BitVec.ofNat Config.pcWidth Config.instrBytes))

/-- The record of an `Unknown` word (R76, R222): `PC` has advanced past it. -/
def unknownFault (w : Word) (s : State) : FaultRecord where
  kind := .unknownOpcode
  pc := s.pc - BitVec.ofNat Config.pcWidth Config.instrBytes
  word := some w
  target := none
  key := none

/-- Where the next fetch reads: `PC`, or `PROGRAM_START` where no word fits at `PC`. -/
def fetchPlace (s : State) : PcVal :=
  if Config.ramSize < s.pc.toNat + Config.instrBytes then BitVec.ofNat Config.pcWidth Config.programStart else s.pc

/-- A word stored where the next fetch reads, in a state that fetches: Running, no fault latched. -/
def placeWord (w : Word) (s : State) : State :=
  { s with
    pc := fetchPlace s
    mem := s.mem.writeBytes (fetchPlace s).toNat [highByte w, lowByte w]
    haltedOnKey := none
    fault := none }

end Sys2Proof.Machine
end

