-- ==== Sys2Proof/Machine/Cycle.lean ====
section
/-! DEFINITION. The tick (R100): decode and execute the fetched word, the Running and WaitingForKey ticks, and the
faulted block that does nothing. -/

namespace Sys2Proof.Machine

/-- Decode a fetched word and run it; an `Unknown` word latches `UnknownOpcode` (R75, R76). -/
def runWord (w : Word) (s : State) : Host.Outcome State Fault Refusal :=
  match decode w with
  | .instr i => exec i s
  | .unknown u => .next (latch (unknownFault u s) s)

/-- A Running tick after its timer phase: fetch, decode, execute (R100, R105). -/
def runTick (s : State) : Host.Outcome State Fault Refusal :=
  match fetch s with
  | .word w t => runWord w t
  | .faulted t => .next t

/-- `tick(s, elapsed_ms)` of R100: a faulted block does nothing (R103); else the timer phase, then an instruction
(Running) or the key-wait step (WaitingForKey). -/
def tick (s : State) : Host.Outcome State Fault Refusal :=
  match s.fault with
  | some _ => .next s
  | none =>
    match s.haltedOnKey with
    | none => runTick (timerPhase (takeInputs s))
    | some x => .next (keyWaitStep x (timerPhase (takeInputs s)))

end Sys2Proof.Machine
end

