-- ==== Sys2Proof/Machine/Step.lean ====
section
/-! DEFINITION. One step of the machine is one tick of the block (R100). -/

namespace Sys2Proof.Machine

/-- One step: one tick (R100), its inputs taken from the state (R112). -/
def step (s : State) : Host.Outcome State Fault Refusal := tick s

/-- The table word of `nbits` bits stored where `step` fetches next, so that the next step runs it. -/
def State.withFetchWord (s : State) (nbits w : Nat) : State := placeWord (tableWord nbits w) s

end Sys2Proof.Machine
end

