-- ==== Sys2Proof/Machine/Driver.lean ====
section
/-! DEFINITION. What the driver and the loader may do to the block between ticks (R236): call `reset()`, load a
program after it, and read the result of a tick. No step does any of these. -/

namespace Sys2Proof.Machine

/-- The driver's `reset()` on any state (R260, R261): every field of R20 at its reset value. The display is a device
outside the block, so its pixels stay (91_not_in_source.md N9), and so do the inputs still to come. The font installed is the
configured one (R5), so `resetBlock` is the reset of every configuration. -/
def resetBlock (s : State) : State :=
  { State.reset with
    mem := Memory.writeBytes [] Config.fontBase s.params.font.toList
    screen := s.screen
    ports := s.ports
    inputs := s.inputs
    draws := s.draws
    params := s.params }

/-- The loader (R262): the program bytes "unmodified into `memory[0x200..]`"; none where the program is larger than
the map holds, which is a load-time fault outside the block (R58). -/
def loadProgram (bytes : List Byte) (s : State) : Option State :=
  if bytes.length ≤ Config.maxProgram then some (s.storeBytes Config.programStart bytes) else none

/-- What the driver reads after a tick (R111): the state, or the fault record the tick reports. -/
def tickReport (s : State) : Except FaultRecord State :=
  match s.fault with
  | some r => .error r
  | none => .ok s

end Sys2Proof.Machine
end

