-- ==== Sys2Proof/Safety.lean ====
section
/-! DEFINITION. The terms claims are stated in: the parts of the state and what leaves them unchanged, raising a
fault, which fault an instruction raises (R221), what an instruction may write (R23, R51), the states a run can be
in (the invariant), and the pixels a sprite covers. -/

namespace Sys2Proof.Machine

/-! ### Frames -/

/-- The parts of the state a frame speaks of. -/
inductive Part where
  | regs | i | pc | stack | dt | st | halted | acc | mem | fault | screen | ports | params
deriving DecidableEq, Repr

/-- The part is the same in both states; memory through the read of one byte, at every address. -/
def Part.same (p : Part) (s t : State) : Prop :=
  match p with
  | .regs => ∀ x, t.reg x = s.reg x
  | .i => t.i = s.i
  | .pc => t.pc = s.pc
  | .stack => t.stack = s.stack ∧ t.sp = s.sp
  | .dt => t.dt = s.dt
  | .st => t.st = s.st
  | .halted => t.haltedOnKey = s.haltedOnKey
  | .acc => t.acc = s.acc
  | .mem => ∀ a, t.byteAt a = s.byteAt a
  | .fault => t.fault = s.fault
  | .screen => t.screen = s.screen
  | .ports => t.ports = s.ports ∧ t.inputs = s.inputs ∧ t.draws = s.draws
  | .params => t.params = s.params

/-- Every part but the listed ones is the same in both states. -/
def Unchanged (but : List Part) (s t : State) : Prop := ∀ p, p ∉ but → p.same s t

/-- Every register but the listed ones is the same in both states. -/
def RegsUnchanged (but : List RegIdx) (s t : State) : Prop := ∀ x, x ∉ but → t.reg x = s.reg x

/-! ### Faults -/

/-- In `s` instruction `i` raises a fault of kind `k`: a record of that kind is latched and nothing else changes (R104). -/
def Raises (i : Instr) (s : State) (k : Fault) : Prop :=
  ∃ r : FaultRecord, r.kind = k ∧ exec i s = .next { s with fault := some r }

/-- The address an instruction's check compares with `RAM_SIZE`, formed in full; none where it makes no check (R221, R222). -/
def checkedAddress (i : Instr) (s : State) : Option Nat :=
  match i with
  | .cls | .ret | .call _ | .ldVxKk _ _ | .addVxKk _ _ | .ldVxVy _ _ | .or _ _ | .and _ _ | .xor _ _ => none
  | .addVxVy _ _ | .sub _ _ | .shr _ _ | .subn _ _ | .shl _ _ | .ldINnn _ | .rnd _ _ | .jmp _ => none
  | .ldVxDt _ | .ldVxK _ | .ldDtVx _ | .ldStVx _ | .ldFVx _ => none
  | .seVxKk x kk => if s.reg x = kk then some (s.pc.toNat + 2) else none
  | .sneVxKk x kk => if s.reg x = kk then none else some (s.pc.toNat + 2)
  | .seVxVy x y => if s.reg x = s.reg y then some (s.pc.toNat + 2) else none
  | .sneVxVy x y => if s.reg x = s.reg y then none else some (s.pc.toNat + 2)
  | .jmpV0 nnn => some (nnn + (s.reg 0).toNat)
  | .drw _ _ n => some (s.i.toNat + n)
  | .skp x =>
    if ∃ k : KeyCode, k.val = (s.reg x).toNat ∧ k ∈ s.ports.keysDown then some (s.pc.toNat + 2) else none
  | .sknp x =>
    if ∃ k : KeyCode, k.val = (s.reg x).toNat ∧ k ∉ s.ports.keysDown then some (s.pc.toNat + 2) else none
  | .addIVx x => some (s.i.toNat + (s.reg x).toNat)
  | .ldBVx _ => some (s.i.toNat + 2)
  | .ldMemVx x | .ldVxMem x => some (s.i.toNat + x.val)

/-- `AddressFault` when the checked address is at or above `bound` (R221). -/
def addressCheck (i : Instr) (bound : Nat) (s : State) : Option Fault :=
  match checkedAddress i s with
  | some a => if bound ≤ a then some .addressFault else none
  | none => none

/-- The fault an instruction raises in a state, after R221's table; none where it completes. `Dxyn` checks `I + n`
against `RAM_SIZE` by `>`, every other check is by `>=`; the key code is checked before the key is asked for (R226). -/
def raisedFault (i : Instr) (s : State) : Option Fault :=
  match i with
  | .ret => if s.sp.val = 0 then some .stackUnderflow else none
  | .call _ => if s.sp.val = Config.stackDepth then some .stackOverflow else none
  | .skp x | .sknp x =>
    if Config.keyCount ≤ (s.reg x).toNat then some .keyIndexFault else addressCheck i Config.ramSize s
  | .seVxKk _ _ | .sneVxKk _ _ | .seVxVy _ _ | .sneVxVy _ _ | .jmpV0 _ => addressCheck i Config.ramSize s
  | .addIVx _ | .ldBVx _ | .ldMemVx _ | .ldVxMem _ => addressCheck i Config.ramSize s
  | .drw _ _ _ => addressCheck i (Config.ramSize + 1) s
  | .cls | .jmp _ | .ldVxKk _ _ | .addVxKk _ _ | .ldVxVy _ _ | .or _ _ | .and _ _ | .xor _ _ => none
  | .addVxVy _ _ | .sub _ _ | .shr _ _ | .subn _ _ | .shl _ _ | .ldINnn _ | .rnd _ _ => none
  | .ldVxDt _ | .ldVxK _ | .ldDtVx _ | .ldStVx _ | .ldFVx _ => none

/-! ### What an instruction may write -/

/-- The registers an instruction writes (R23). -/
def writtenRegs (i : Instr) : List RegIdx :=
  match i with
  | .cls | .ret | .jmp _ | .call _ | .seVxKk _ _ | .sneVxKk _ _ | .seVxVy _ _ | .sneVxVy _ _ => []
  | .ldINnn _ | .jmpV0 _ | .skp _ | .sknp _ | .ldVxK _ => []
  | .ldDtVx _ | .ldStVx _ | .addIVx _ | .ldFVx _ | .ldBVx _ | .ldMemVx _ => []
  | .ldVxKk x _ | .addVxKk x _ | .rnd x _ | .ldVxDt x => [x]
  | .ldVxVy x _ | .or x _ | .and x _ | .xor x _ => [x]
  | .addVxVy x _ | .sub x _ | .shr x _ | .subn x _ | .shl x _ => [x, vf]
  | .drw _ _ _ => [vf]
  | .ldVxMem x => (List.finRange Config.numRegs).filter (· ≤ x)

/-- The parts of the state an instruction may write when it completes, beside the fetch's `PC` advance
(R23, R26 to R30, R51). -/
def writtenParts (i : Instr) : List Part :=
  match i with
  | .cls => [.screen]
  | .ret | .call _ => [.pc, .stack]
  | .jmp _ | .jmpV0 _ => [.pc]
  | .seVxKk _ _ | .sneVxKk _ _ | .seVxVy _ _ | .sneVxVy _ _ | .skp _ | .sknp _ => [.pc]
  | .ldVxKk _ _ | .addVxKk _ _ | .rnd _ _ | .ldVxDt _ | .ldVxMem _ => [.regs]
  | .ldVxVy _ _ | .or _ _ | .and _ _ | .xor _ _ => [.regs]
  | .addVxVy _ _ | .sub _ _ | .shr _ _ | .subn _ _ | .shl _ _ => [.regs]
  | .ldINnn _ | .addIVx _ | .ldFVx _ => [.i]
  | .drw _ _ _ => [.regs, .screen]
  | .ldVxK _ => [.halted]
  | .ldDtVx _ => [.dt]
  | .ldStVx _ => [.st]
  | .ldBVx _ | .ldMemVx _ => [.mem]

/-- How many bytes an instruction stores; the `k`-th of them goes to `effectiveAddress s k` (R51, R176). -/
def storedCount (i : Instr) : Nat :=
  match i with
  | .ldBVx _ => 3
  | .ldMemVx x => x.val + 1
  | .cls | .ret | .jmp _ | .call _ | .seVxKk _ _ | .sneVxKk _ _ | .seVxVy _ _ | .sneVxVy _ _ | .jmpV0 _ => 0
  | .ldVxKk _ _ | .addVxKk _ _ | .rnd _ _ | .ldVxVy _ _ | .or _ _ | .and _ _ | .xor _ _ => 0
  | .addVxVy _ _ | .sub _ _ | .shr _ _ | .subn _ _ | .shl _ _ | .drw _ _ _ | .skp _ | .sknp _ => 0
  | .ldVxDt _ | .ldVxK _ | .ldDtVx _ | .ldStVx _ | .ldINnn _ | .addIVx _ | .ldFVx _ | .ldVxMem _ => 0

/-! ### The states of a run -/

/-- The block executes instructions: no fault latched, no key awaited (R103, R105). -/
def Running (s : State) : Prop := s.fault = none ∧ s.haltedOnKey = none

/-- A whole instruction word lies at `PC` (R101). -/
def Fetchable (s : State) : Prop := s.pc.toNat + Config.instrBytes ≤ Config.ramSize

/-- The word at `PC`, big-endian (R52). -/
def wordAtPc (s : State) : Word := assembleWord (s.byteAt s.pc.toNat) (s.byteAt (s.pc.toNat + 1))

/-- The state at the start of a tick's instruction: the inputs taken, the timer phase run (R100). -/
def afterTimers (s : State) : State := timerPhase (takeInputs s)

/-- The state an instruction's operation runs in: after the timer phase and the fetch's `PC` advance (R100, R102). -/
def atOperation (s : State) : State := { afterTimers s with pc := s.pc + 2 }

/-- A fault record as the checks of R221 and R222 make it: a target at or above `RAM_SIZE` for `AddressFault`
alone, a key code above 15 for `KeyIndexFault` alone, a missing word for `AddressFault` alone. -/
def FaultRecord.wf (r : FaultRecord) : Prop :=
  (r.kind = .addressFault ↔ r.target ≠ none) ∧ (∀ a, r.target = some a → Config.ramSize ≤ a) ∧
  (r.kind = .keyIndexFault ↔ r.key ≠ none) ∧ (∀ k, r.key = some k → Config.keyCount ≤ k.toNat) ∧
  (r.word = none → r.kind = .addressFault)

/-- The invariant of every run from reset: memory in its canonical form; `PC <= RAM_SIZE` (R25); `I < RAM_SIZE`
(R26); every return address `<= RAM_SIZE`; a faulted block awaits no key (R105); a latched record is well formed. -/
def State.Inv (s : State) : Prop :=
  s.mem.wf ∧ s.pc.toNat ≤ Config.ramSize ∧ s.i.toNat < Config.ramSize ∧
  (∀ k : Fin Config.stackDepth, s.stack[k].toNat ≤ Config.ramSize) ∧
  (s.fault ≠ none → s.haltedOnKey = none) ∧ ∀ r, s.fault = some r → r.wf

/-! ### The display -/

/-- The sprite of `n` rows at `I`, drawn at `(Vx, Vy)` in the configured bit order with every pixel wrapping, has a set
bit on pixel `p` (R212, R213, D14, D29). -/
def spriteCovers (s : State) (x y : RegIdx) (n : Nat) (p : Pixel) : Prop :=
  ∃ r, r < n ∧ ∃ c, c < 8 ∧ spriteBit s.params.spriteBitOrder (s.byteAt (s.i.toNat + r)) c = true ∧
    ((s.reg x).toNat + c) % Config.displayW = p.1.val ∧ ((s.reg y).toNat + r) % Config.displayH = p.2.val

end Sys2Proof.Machine
end

