-- ==== Sys2Proof/Certificates/Slice0/Obligations.lean ====
section
/-! DEFINITION. The statements for the provers, and the few terms they share. An instruction's meaning runs in the
state the fetch has left (R102): `s.pc` is the address of the instruction plus 2. -/

namespace Sys2Proof.Machine

/-! ### Words as the encoding lines of the rules write them -/

/-- `base | nnn`. -/
def wordA (base nnn : Nat) : Word := BitVec.ofNat 16 (base ||| nnn)
/-- `base | x << 8`. -/
def wordX (base : Nat) (x : RegIdx) : Word := BitVec.ofNat 16 (base ||| x.val <<< 8)
/-- `base | x << 8 | kk`. -/
def wordXK (base : Nat) (x : RegIdx) (kk : Byte) : Word := BitVec.ofNat 16 (base ||| x.val <<< 8 ||| kk.toNat)
/-- `base | x << 8 | y << 4`. -/
def wordXY (base : Nat) (x y : RegIdx) : Word := BitVec.ofNat 16 (base ||| x.val <<< 8 ||| y.val <<< 4)
/-- `base | x << 8 | y << 4 | n`. -/
def wordXYN (base : Nat) (x y : RegIdx) (n : Nat) : Word :=
  BitVec.ofNat 16 (base ||| x.val <<< 8 ||| y.val <<< 4 ||| n)

/-! ### Shapes of an effect -/

/-- The instruction completes, writes `b` into `V[x]`, and changes nothing else. -/
def WritesReg (i : Instr) (s : State) (x : RegIdx) (b : Nat) : Prop :=
  ∃ t, exec i s = .next t ∧ (t.reg x).toNat = b ∧ RegsUnchanged [x] s t ∧ Unchanged [.regs] s t

/-- The instruction completes and writes `r` into `V[x]`, then into `VF` the value 1 where `f` holds and 0 where it does
not, so that with `x = 0xF` the flag is what remains (R22, R151); it changes nothing else. -/
def WritesRegAndFlag (i : Instr) (s : State) (x : RegIdx) (r : Nat) (f : Prop) : Prop :=
  ∃ t, exec i s = .next t ∧ (x ≠ 0xF → (t.reg x).toNat = r) ∧
    (f → t.reg 0xF = 0x01) ∧ (¬ f → t.reg 0xF = 0x00) ∧
    RegsUnchanged [x, 0xF] s t ∧ Unchanged [.regs] s t

/-- The instruction completes, writes `w` into `I`, and changes nothing else. -/
def WritesI (i : Instr) (s : State) (w : Nat) : Prop :=
  ∃ t, exec i s = .next t ∧ t.i.toNat = w ∧ Unchanged [.i] s t

/-- The instruction completes, sets `PC` to `a`, and changes nothing else. -/
def JumpsTo (i : Instr) (s : State) (a : Nat) : Prop :=
  ∃ t, exec i s = .next t ∧ t.pc.toNat = a ∧ Unchanged [.pc] s t

/-- `skip(cond)`: past the next word where the condition holds, with `AddressFault` where that leaves memory; without the
condition nothing changes, `PC` included. -/
def SkipsIf (i : Instr) (s : State) (cond : Prop) : Prop :=
  (¬ cond → ∃ t, exec i s = .next t ∧ Unchanged [] s t) ∧
  (cond → s.pc.toNat + 2 < Config.ramSize → JumpsTo i s (s.pc.toNat + 2)) ∧
  (cond → Config.ramSize ≤ s.pc.toNat + 2 → Raises i s .addressFault)

/-- The instruction completes, and the fetch after it gives a word, `PC` advanced by 2, whose `k`-th byte (the high one
first) is `b j` where the instruction stores its `j`-th byte to that address, and the byte memory held where it stores
none. -/
def FetchesAsStored (i : Instr) (s : State) (b : Nat → Nat) : Prop :=
  ∃ t w, exec i s = .next t ∧ fetch t = .word w { t with pc := s.pc + 2 } ∧
    ∀ k, k < 2 →
      (∀ j, j < storedCount i → effectiveAddress s j = s.pc.toNat + k → w.toNat / 256 ^ (1 - k) % 256 = b j) ∧
      ((∀ j, j < storedCount i → effectiveAddress s j ≠ s.pc.toNat + k) →
        w.toNat / 256 ^ (1 - k) % 256 = (s.byteAt (s.pc.toNat + k)).toNat)

end Sys2Proof.Machine

open Sys2Proof Sys2Proof.Machine

/-! ### Control flow -/

/-- R121: JMP, every 12-bit target; no fault occurs. -/
def Obligations.JmpSetsPc : Prop :=
  ∀ nnn, nnn < 0x1000 → decode (wordA 0x1000 nnn) = .instr (.jmp nnn) ∧ ∀ s, JumpsTo (.jmp nnn) s nnn

/-- R122, R108: CALL pushes the `PC` it sees and jumps; with 16 entries in use it raises `StackOverflow` (latched by the
spec's decision D3, log entry 1). The width of an entry is D11, log entry 15. -/
def Obligations.CallPushesReturnAddress : Prop :=
  ∀ nnn, nnn < 0x1000 → decode (wordA 0x2000 nnn) = .instr (.call nnn) ∧ ∀ s : State,
    (∀ k : Fin Config.stackDepth, s.sp.val = k.val → ∃ t, exec (.call nnn) s = .next t ∧
      t.pc.toNat = nnn ∧ t.sp.val = k.val + 1 ∧ t.stack[k] = s.pc ∧
      (∀ j : Fin Config.stackDepth, j ≠ k → t.stack[j] = s.stack[j]) ∧ Unchanged [.pc, .stack] s t) ∧
    (s.sp.val = Config.stackDepth → Raises (.call nnn) s .stackOverflow)

/-- R109, R120: RET pops the newest return address into `PC`, whatever its value (the spec's decision D12, log entry
15), and leaves the entry; with no entry in use it raises `StackUnderflow` (latched by D3, log entry 1). That a pop
leaves the entry is D11, log entry 15, as well. -/
def Obligations.RetPopsReturnAddress : Prop :=
  decode 0x00EE = .instr .ret ∧ ∀ s : State,
    (∀ k : Fin Config.stackDepth, s.sp.val = k.val + 1 → ∃ t, exec .ret s = .next t ∧
      t.pc = s.stack[k] ∧ t.sp.val = k.val ∧ t.stack = s.stack ∧ Unchanged [.pc, .stack] s t) ∧
    (s.sp.val = 0 → Raises .ret s .stackUnderflow)

/-- A RET run in the state a CALL leaves comes back to the word after the CALL (R120, R122). Where the pushed address is
`RAM_SIZE` this rests on RET not checking the address it pops, the spec's decision D12 (log entry 15), a choice. -/
def Obligations.RetUndoesCall : Prop :=
  ∀ (s t u : State) (nnn : Nat), s.sp.val < Config.stackDepth → exec (.call nnn) s = .next t → nnn < 0x1000 →
    exec .ret t = .next u → u.pc = s.pc ∧ u.sp = s.sp ∧ u.fault = s.fault ∧
      ∀ j : Fin Config.stackDepth, j.val ≠ s.sp.val → u.stack[j] = s.stack[j]

/-- R123, R124: skips on an immediate. The latch of their `AddressFault` is the spec's decision D3, log entry 1. -/
def Obligations.ImmediateSkips : Prop :=
  ∀ (x : RegIdx) (kk : Byte),
    decode (wordXK 0x3000 x kk) = .instr (.seVxKk x kk) ∧ decode (wordXK 0x4000 x kk) = .instr (.sneVxKk x kk) ∧
    ∀ s, SkipsIf (.seVxKk x kk) s (s.reg x = kk) ∧ SkipsIf (.sneVxKk x kk) s (s.reg x ≠ kk)

/-- R125, R126: skips on two registers; the words with a low nibble other than 0 are Unknown (the spec's decision D5, log
entry 17). The latch of their `AddressFault` is D3, log entry 1. -/
def Obligations.RegisterSkips : Prop :=
  ∀ x y : RegIdx,
    decode (wordXY 0x5000 x y) = .instr (.seVxVy x y) ∧ decode (wordXY 0x9000 x y) = .instr (.sneVxVy x y) ∧
    (∀ n, 0 < n → n < 16 → decode (wordXYN 0x5000 x y n) = .unknown (wordXYN 0x5000 x y n) ∧
      decode (wordXYN 0x9000 x y n) = .unknown (wordXYN 0x9000 x y n)) ∧
    ∀ s, SkipsIf (.seVxVy x y) s (s.reg x = s.reg y) ∧ SkipsIf (.sneVxVy x y) s (s.reg x ≠ s.reg y)

/-- R127: JMP V0 forms `nnn + V0` in full; at or above `RAM_SIZE` it raises `AddressFault` (latched by the spec's
decision D3, log entry 1). -/
def Obligations.JmpV0AddsV0 : Prop :=
  ∀ nnn, nnn < 0x1000 → decode (wordA 0xB000 nnn) = .instr (.jmpV0 nnn) ∧ ∀ s : State,
    (nnn + (s.reg 0).toNat < Config.ramSize → JumpsTo (.jmpV0 nnn) s (nnn + (s.reg 0).toNat)) ∧
    (Config.ramSize ≤ nnn + (s.reg 0).toNat → Raises (.jmpV0 nnn) s .addressFault)

/-! ### Register loads and the ALU -/

/-- R140, R141: load an immediate; add an immediate modulo 256 without a flag. -/
def Obligations.ImmediateLoadAndAdd : Prop :=
  ∀ (x : RegIdx) (kk : Byte),
    decode (wordXK 0x6000 x kk) = .instr (.ldVxKk x kk) ∧ decode (wordXK 0x7000 x kk) = .instr (.addVxKk x kk) ∧
    ∀ s, WritesReg (.ldVxKk x kk) s x kk.toNat ∧
      WritesReg (.addVxKk x kk) s x (((s.reg x).toNat + kk.toNat) % 256)

/-- R142: the random port's answer for this tick, masked bit by bit by `kk`. -/
def Obligations.RndMasksPortAnswer : Prop :=
  ∀ (x : RegIdx) (kk : Byte), decode (wordXK 0xC000 x kk) = .instr (.rnd x kk) ∧
    ∀ s, ∃ t, exec (.rnd x kk) s = .next t ∧
      (∀ k, (t.reg x).getLsbD k = (s.ports.randomByte.getLsbD k && kk.getLsbD k)) ∧
      RegsUnchanged [x] s t ∧ Unchanged [.regs] s t

/-- R152: register copy. -/
def Obligations.RegisterCopy : Prop :=
  ∀ x y : RegIdx, decode (wordXY 0x8000 x y) = .instr (.ldVxVy x y) ∧
    ∀ s, WritesReg (.ldVxVy x y) s x (s.reg y).toNat

/-- R153, R154, R155: OR, AND, XOR act bit by bit, and no flag is written. -/
def Obligations.LogicActsBitwise : Prop :=
  ∀ x y : RegIdx,
    decode (wordXY 0x8001 x y) = .instr (.or x y) ∧ decode (wordXY 0x8002 x y) = .instr (.and x y) ∧
    decode (wordXY 0x8003 x y) = .instr (.xor x y) ∧
    ∀ s,
      (∃ t, exec (.or x y) s = .next t ∧
        (∀ k, (t.reg x).getLsbD k = ((s.reg x).getLsbD k || (s.reg y).getLsbD k)) ∧
        RegsUnchanged [x] s t ∧ Unchanged [.regs] s t) ∧
      (∃ t, exec (.and x y) s = .next t ∧
        (∀ k, (t.reg x).getLsbD k = ((s.reg x).getLsbD k && (s.reg y).getLsbD k)) ∧
        RegsUnchanged [x] s t ∧ Unchanged [.regs] s t) ∧
      (∃ t, exec (.xor x y) s = .next t ∧
        (∀ k, (t.reg x).getLsbD k = Bool.xor ((s.reg x).getLsbD k) ((s.reg y).getLsbD k)) ∧
        RegsUnchanged [x] s t ∧ Unchanged [.regs] s t)

/-- R156: ADD with the unsigned carry in `VF`. -/
def Obligations.AddWritesCarry : Prop :=
  ∀ x y : RegIdx, decode (wordXY 0x8004 x y) = .instr (.addVxVy x y) ∧ ∀ s,
    WritesRegAndFlag (.addVxVy x y) s x (((s.reg x).toNat + (s.reg y).toNat) % 256)
      (255 < (s.reg x).toNat + (s.reg y).toNat)

/-- R157, R159: SUB and SUBN with "no borrow" in `VF`. -/
def Obligations.SubAndSubnWriteNoBorrow : Prop :=
  ∀ x y : RegIdx,
    decode (wordXY 0x8005 x y) = .instr (.sub x y) ∧ decode (wordXY 0x8007 x y) = .instr (.subn x y) ∧ ∀ s,
    WritesRegAndFlag (.sub x y) s x (((s.reg x).toNat + 256 - (s.reg y).toNat) % 256)
      ((s.reg y).toNat ≤ (s.reg x).toNat) ∧
    WritesRegAndFlag (.subn x y) s x (((s.reg y).toNat + 256 - (s.reg x).toNat) % 256)
      ((s.reg x).toNat ≤ (s.reg y).toNat)

/-- R158, R160, R161: SHR and SHL by one of the configured shift source, into `Vx`, with the bit shifted out in `VF`. The
parameter is the spec's decision D29 (log entry 3); that `VY` shifts `Vy` into `Vx` is its item G4 (log entry 24). -/
def Obligations.ShiftsWriteShiftedOutBit : Prop :=
  ∀ x y : RegIdx,
    decode (wordXY 0x8006 x y) = .instr (.shr x y) ∧ decode (wordXY 0x800E x y) = .instr (.shl x y) ∧ ∀ s : State,
    (s.params.shiftSource = .vx →
      WritesRegAndFlag (.shr x y) s x ((s.reg x).toNat / 2) ((s.reg x).toNat % 2 = 1) ∧
      WritesRegAndFlag (.shl x y) s x ((s.reg x).toNat * 2 % 256) (128 ≤ (s.reg x).toNat)) ∧
    (s.params.shiftSource = .vy →
      WritesRegAndFlag (.shr x y) s x ((s.reg y).toNat / 2) ((s.reg y).toNat % 2 = 1) ∧
      WritesRegAndFlag (.shl x y) s x ((s.reg y).toNat * 2 % 256) (128 ≤ (s.reg y).toNat))

/-! ### The address register and memory -/

/-- R170: `I` loaded with any 12-bit address; no fault occurs. -/
def Obligations.LdILoadsAddress : Prop :=
  ∀ nnn, nnn < 0x1000 → decode (wordA 0xA000 nnn) = .instr (.ldINnn nnn) ∧ ∀ s, WritesI (.ldINnn nnn) s nnn

/-- R172: `I` pointed at `Vx * 5`, also where `Vx` is no hex digit (the spec derives that, log entry 27). -/
def Obligations.LdFPointsAtGlyph : Prop :=
  ∀ x : RegIdx, decode (wordX 0xF029 x) = .instr (.ldFVx x) ∧ ∀ s, WritesI (.ldFVx x) s ((s.reg x).toNat * 5)

/-- R171: `I + Vx` formed in full, no flag; at or above `RAM_SIZE` an `AddressFault` (the spec's decision D13,
log entry 16; latched by D3, log entry 1). -/
def Obligations.AddToIChecksRange : Prop :=
  ∀ x : RegIdx, decode (wordX 0xF01E x) = .instr (.addIVx x) ∧ ∀ s : State,
    (s.i.toNat + (s.reg x).toNat < Config.ramSize → WritesI (.addIVx x) s (s.i.toNat + (s.reg x).toNat)) ∧
    (Config.ramSize ≤ s.i.toNat + (s.reg x).toNat → Raises (.addIVx x) s .addressFault)

/-- R173: the three decimal digits of `Vx` at `I`, `I + 1`, `I + 2` and no other byte; `AddressFault` before any write
where `I + 2` is outside (the spec's decision D13, log entry 16; latched by D3, log entry 1). That every address can be
written, the font's too, is D26, log entry 9. -/
def Obligations.BcdStoresThreeDigits : Prop :=
  ∀ x : RegIdx, decode (wordX 0xF033 x) = .instr (.ldBVx x) ∧ ∀ s : State,
    (s.i.toNat + 2 < Config.ramSize → ∃ t, exec (.ldBVx x) s = .next t ∧
      (t.byteAt (effectiveAddress s 0)).toNat = (s.reg x).toNat / 100 ∧
      (t.byteAt (effectiveAddress s 1)).toNat = (s.reg x).toNat / 10 % 10 ∧
      (t.byteAt (effectiveAddress s 2)).toNat = (s.reg x).toNat % 10 ∧
      (∀ a, (∀ k, k < 3 → a ≠ effectiveAddress s k) → t.byteAt a = s.byteAt a) ∧ Unchanged [.mem] s t) ∧
    (Config.ramSize ≤ s.i.toNat + 2 → Raises (.ldBVx x) s .addressFault)

/-- R174: `V0` to `Vx` at `I` to `I + x` and no other byte; `I` unchanged (the spec's decision D10, log entry 14);
`AddressFault` before any write where `I + x` is outside (D13, log entry 16; latched by D3, log entry 1). That every
address can be written, the font's too, is D26, log entry 9. -/
def Obligations.StoreRegistersAtI : Prop :=
  ∀ x : RegIdx, decode (wordX 0xF055 x) = .instr (.ldMemVx x) ∧ ∀ s : State,
    (s.i.toNat + x.val < Config.ramSize → ∃ t, exec (.ldMemVx x) s = .next t ∧
      (∀ j : RegIdx, j ≤ x → t.byteAt (effectiveAddress s j.val) = s.reg j) ∧
      (∀ a, (∀ j : RegIdx, j ≤ x → a ≠ effectiveAddress s j.val) → t.byteAt a = s.byteAt a) ∧
      Unchanged [.mem] s t) ∧
    (Config.ramSize ≤ s.i.toNat + x.val → Raises (.ldMemVx x) s .addressFault)

/-- R175: `V0` to `Vx` from `I` to `I + x`, the registers above `x` unchanged; `I` unchanged (the spec's decision D10,
log entry 14); `AddressFault` before any write where `I + x` is outside (D13, log entry 16; latched by D3, log entry 1). -/
def Obligations.LoadRegistersFromI : Prop :=
  ∀ x : RegIdx, decode (wordX 0xF065 x) = .instr (.ldVxMem x) ∧ ∀ s : State,
    (s.i.toNat + x.val < Config.ramSize → ∃ t, exec (.ldVxMem x) s = .next t ∧
      (∀ j : RegIdx, j ≤ x → t.reg j = s.byteAt (effectiveAddress s j.val)) ∧
      (∀ j : RegIdx, x < j → t.reg j = s.reg j) ∧ Unchanged [.regs] s t) ∧
    (Config.ramSize ≤ s.i.toNat + x.val → Raises (.ldVxMem x) s .addressFault)

/-- The source's round trip (95_test_vectors.md L1.2): `Fx55`, then any change of `V0` to `Vx`, then `Fx65` with the same
`I` and `x` gives the registers back. It rests on `Fx55` keeping `I` (the spec's decision D10, log entry 14). -/
def Obligations.StoreThenLoadRestoresRegisters : Prop :=
  ∀ (x : RegIdx) (s t u w : State), s.i.toNat + x.val < Config.ramSize → exec (.ldMemVx x) s = .next t →
    RegsUnchanged ((List.finRange Config.numRegs).filter (· ≤ x)) t u → Unchanged [.regs, .pc] t u →
    exec (.ldVxMem x) u = .next w → ∀ j : RegIdx, w.reg j = s.reg j

/-- R62, R269: what `Fx33` or `Fx55` stores is fetched as stored, wherever the store meets the coming instruction word.
Any `PC`, an odd one too, is the spec's decision D4 (log entry 23); that every address can be written is D26 (log entry
9). -/
def Obligations.FetchSeesStoredBytes : Prop :=
  ∀ (x : RegIdx) (s : State), s.pc.toNat + 2 ≤ Config.ramSize →
    (s.i.toNat + 2 < Config.ramSize → FetchesAsStored (.ldBVx x) s fun j => (s.reg x).toNat / 10 ^ (2 - j) % 10) ∧
    (s.i.toNat + x.val < Config.ramSize →
      FetchesAsStored (.ldMemVx x) s fun j => (s.reg (Fin.ofNat Config.numRegs j)).toNat)

/-! ### Timers, keys, display -/

/-- R193, R194, R195: the timer instructions. -/
def Obligations.TimerInstructions : Prop :=
  ∀ x : RegIdx, decode (wordX 0xF007 x) = .instr (.ldVxDt x) ∧ decode (wordX 0xF015 x) = .instr (.ldDtVx x) ∧
    decode (wordX 0xF018 x) = .instr (.ldStVx x) ∧ ∀ s : State,
    WritesReg (.ldVxDt x) s x s.dt.toNat ∧
    (∃ t, exec (.ldDtVx x) s = .next t ∧ t.dt = s.reg x ∧ Unchanged [.dt] s t) ∧
    (∃ t, exec (.ldStVx x) s = .next t ∧ t.st = s.reg x ∧ Unchanged [.st] s t)

/-- R190: on a frame tick each timer drops by 1 unless it is 0, independently of the other; without one nothing changes. -/
def Obligations.TimerUnitCountsDown : Prop :=
  ∀ s : State, (timerUnit true s).dt.toNat = s.dt.toNat - 1 ∧ (timerUnit true s).st.toNat = s.st.toNat - 1 ∧
    Unchanged [.dt, .st] s (timerUnit true s) ∧ Unchanged [] s (timerUnit false s)

/-- R201, R202: the key skips. A code above 15 raises `KeyIndexFault` (the spec's decision D9, log entry 13; a fault is
latched by D3, log entry 1); else the skip is on the answer of the keypad port, for every answer. -/
def Obligations.KeySkips : Prop :=
  ∀ x : RegIdx, decode (wordX 0xE09E x) = .instr (.skp x) ∧ decode (wordX 0xE0A1 x) = .instr (.sknp x) ∧ ∀ s : State,
    (Config.keyCount ≤ (s.reg x).toNat → Raises (.skp x) s .keyIndexFault ∧ Raises (.sknp x) s .keyIndexFault) ∧
    ∀ k : KeyCode, (s.reg x).toNat = k.val →
      SkipsIf (.skp x) s (k ∈ s.ports.keysDown) ∧ SkipsIf (.sknp x) s (k ∉ s.ports.keysDown)

/-- R203: `Fx0A` enters WaitingForKey and changes nothing else; the keypad is not polled in its tick (the spec's
decision D8, log entry 12). -/
def Obligations.WaitForKeyHalts : Prop :=
  ∀ x : RegIdx, decode (wordX 0xF00A x) = .instr (.ldVxK x) ∧
    ∀ s, ∃ t, exec (.ldVxK x) s = .next t ∧ t.haltedOnKey = some x ∧ Unchanged [.halted] s t

/-- R204 (with the spec's decision D8, log entry 12): a waiting tick fetches nothing; a reported key goes into the
waiting register and the Executor returns to Running; without one only the timer phase has run. That a step is one tick
is D2, log entry 26. -/
def Obligations.WaitingTickPollsOnce : Prop :=
  ∀ (s : State) (x : RegIdx), s.fault = none → s.haltedOnKey = some x →
    (∀ k, (afterTimers s).ports.polledKey = some k → ∃ t, step s = .next t ∧ (t.reg x).toNat = k.val ∧
      t.haltedOnKey = none ∧ RegsUnchanged [x] s t ∧ t.pc = s.pc ∧
      Unchanged [.regs, .halted] (afterTimers s) t) ∧
    ((afterTimers s).ports.polledKey = none → step s = .next (afterTimers s))

/-- R211: CLS unlights every pixel and changes nothing else of the state; running it again leaves the display cleared. -/
def Obligations.ClsClearsDisplay : Prop :=
  decode 0x00E0 = .instr .cls ∧ ∀ s, ∃ t, exec .cls s = .next t ∧ (∀ p, t.screen.pixel p = false) ∧
    Unchanged [.screen] s t ∧ exec .cls t = .next t

/-- R212 with the reference display of R213 (the spec's decisions D14, D24, D29, log entries 3 and 6): a pixel is
flipped exactly where the sprite has a set bit on it in the configured bit order, `VF` is 1 exactly where a lit pixel was
flipped, no other register changes; `I + n > RAM_SIZE` raises `AddressFault` before the display is called (latched by D3,
log entry 1). -/
def Obligations.DrwXorsSprite : Prop :=
  ∀ (x y : RegIdx) (n : Nat), n < 16 → decode (wordXYN 0xD000 x y n) = .instr (.drw x y n) ∧ ∀ s : State,
    (s.i.toNat + n ≤ Config.ramSize → ∃ t, exec (.drw x y n) s = .next t ∧
      (∀ p, spriteCovers s x y n p → t.screen.pixel p = !s.screen.pixel p) ∧
      (∀ p, ¬ spriteCovers s x y n p → t.screen.pixel p = s.screen.pixel p) ∧
      ((∃ p, spriteCovers s x y n p ∧ s.screen.pixel p = true) → t.reg 0xF = 0x01) ∧
      ((∀ p, spriteCovers s x y n p → s.screen.pixel p = false) → t.reg 0xF = 0x00) ∧
      RegsUnchanged [0xF] s t ∧ Unchanged [.regs, .screen] s t) ∧
    (Config.ramSize < s.i.toNat + n → Raises (.drw x y n) s .addressFault)

/-- Drawing a sprite twice at one place erases it: the screen is as before, and the second draw collides exactly where
the first one lit a pixel (R212, R213; positions not held in `VF`, which the first draw overwrites). The display is the
reference display (the spec's decision D14, log entry 6). A sprite of no rows is D24, log entry 6, the configured bit
order D29, log entry 3. -/
def Obligations.DrawingTwiceErases : Prop :=
  ∀ (x y : RegIdx) (n : Nat) (s t u : State), n < 16 → x ≠ 0xF → y ≠ 0xF → s.i.toNat + n ≤ Config.ramSize →
    exec (.drw x y n) s = .next t → exec (.drw x y n) t = .next u →
    u.screen = s.screen ∧ (u.reg 0xF = 0x01 ↔ ∃ p, spriteCovers s x y n p ∧ s.screen.pixel p = false)

/-! ### The tick -/

/-- R100, R101, R102: in a Running state with a whole word at `PC`, a step takes the tick's inputs, runs the timer
phase, advances `PC` by 2, and runs the decoded instruction. That a step is one tick is the spec's decision D2 (log
entry 26), a `PC` without alignment D4 (log entry 23); the place of the inputs is the model's (log entry 5). -/
def Obligations.StepRunsDecodedInstruction : Prop :=
  ∀ (s : State) (i : Instr), Running s → Fetchable s → decode (wordAtPc s) = .instr i →
    step s = exec i (atOperation s) ∧ (atOperation s).pc.toNat = s.pc.toNat + 2 ∧
      Unchanged [.dt, .st, .acc, .ports, .pc] s (atOperation s)

/-- R77, R76: a fetched word that is none of the 34 instructions raises `UnknownOpcode`; it is never a no-op. The
record's fields are the spec's decision D23 (log entry 22), the latch is D3 (log entry 1). That these words include
`5xyn` and `9xyn` with `n` not 0 and the other `0nnn` is D5 and D6 (log entry 17), that a step is one tick D2 (log entry
26). -/
def Obligations.UnknownWordAlwaysFaults : Prop :=
  ∀ (s : State) (w : Word), Running s → Fetchable s → decode (wordAtPc s) = .unknown w →
    w = wordAtPc s ∧ ∃ r : FaultRecord, r.kind = .unknownOpcode ∧ r.pc = s.pc ∧ r.word = some w ∧ r.target = none ∧
      r.key = none ∧ step s = .next { atOperation s with fault := some r }

/-- R101, R52: a fetch reads the big-endian word at `PC` and advances `PC` by 2; where `PC + 2 > RAM_SIZE` it raises
`AddressFault(pc = PC, target = PC + 2)` and changes nothing but the latch. The latch is the spec's decision D3 (log
entry 1); the record's fields are D23 and 90_conflicts.md C10 (log entry 22). That an odd `PC` fetches like any other is
D4 (log entry 23). -/
def Obligations.FetchReadsWordAtPc : Prop :=
  ∀ s : State,
    (s.pc.toNat + 2 ≤ Config.ramSize → ∃ w t, fetch s = .word w t ∧
      w.toNat = (s.byteAt s.pc.toNat).toNat * 256 + (s.byteAt (s.pc.toNat + 1)).toNat ∧
      t.pc.toNat = s.pc.toNat + 2 ∧ Unchanged [.pc] s t) ∧
    (Config.ramSize < s.pc.toNat + 2 → ∃ r : FaultRecord, r.kind = .addressFault ∧ r.pc = s.pc ∧
      r.target = some (s.pc.toNat + 2) ∧ fetch s = .faulted { s with fault := some r })

/-- R101: a Running tick that fetches beyond memory raises `AddressFault(pc = PC, target = PC + 2)`, with `PC` unchanged
(the latch is the spec's decision D3, log entry 1; the record's fields are D23 and 90_conflicts.md C10, log entry 22).
That a step is one tick is D2 (log entry 26). -/
def Obligations.FetchBeyondMemoryFaults : Prop :=
  ∀ s : State, Running s → Config.ramSize < s.pc.toNat + 2 →
    ∃ r : FaultRecord, r.kind = .addressFault ∧ r.pc = s.pc ∧ r.target = some (s.pc.toNat + 2) ∧ r.word = none ∧
      r.key = none ∧ step s = .next { afterTimers s with fault := some r } ∧ (afterTimers s).pc = s.pc

/-- R103, R271 (the spec's decision D3, log entry 1): a step of a faulted block changes nothing and the same record stays. -/
def Obligations.FaultedBlockIsFrozen : Prop :=
  ∀ (s : State) (n : Nat), s.fault ≠ none → Host.Core.run Sys2Proof.core n s = .next s

/-- R191, R112 (with the spec's decision D7, log entry 4): a tick takes the oldest fixed input, or the next free one
where none is fixed (log entry 5). The accumulator takes its elapsed time; once it holds a frame period the timers count
down once and one period is taken off, the excess kept. -/
def Obligations.TimerPhaseFollowsAccumulator : Prop :=
  ∀ s : State,
    (∀ inp rest, s.inputs = inp :: rest →
      (afterTimers s).ports = inp ∧ (afterTimers s).inputs = rest ∧ (afterTimers s).draws = s.draws) ∧
    (s.inputs = [] → (afterTimers s).ports = freeInput s.draws ∧ (afterTimers s).inputs = [] ∧
      (afterTimers s).draws = s.draws + 1) ∧
    Unchanged [.dt, .st, .acc, .ports] s (afterTimers s) ∧
    (s.acc.val + (afterTimers s).ports.elapsed.val < s.params.framePeriod.val →
      (afterTimers s).acc.val = s.acc.val + (afterTimers s).ports.elapsed.val ∧
      (afterTimers s).dt = s.dt ∧ (afterTimers s).st = s.st) ∧
    (s.params.framePeriod.val ≤ s.acc.val + (afterTimers s).ports.elapsed.val →
      (afterTimers s).acc.val = s.acc.val + (afterTimers s).ports.elapsed.val - s.params.framePeriod.val ∧
      (afterTimers s).dt.toNat = s.dt.toNat - 1 ∧ (afterTimers s).st.toNat = s.st.toNat - 1)

/-- R267: `DT` never rises in a step but by `Fx15`. That it drops by at most 1 otherwise (R196) rests on the spec's decision
D7, at most one frame tick in a tick (log entry 4). That a step is one tick is D2 (log entry 26). -/
def Obligations.DelayTimerRisesOnlyByItsWrite : Prop :=
  ∀ s t : State, step s = .next t →
    (t.dt.toNat ≤ s.dt.toNat ∧ s.dt.toNat ≤ t.dt.toNat + 1) ∨
    (Running s ∧ Fetchable s ∧ ∃ x, decode (wordAtPc s) = .instr (.ldDtVx x) ∧ t.dt = s.reg x)

/-- Every step answers a next state: no behaviour of the block is refused or cut off (R75, R103, R260; a fault as a next
state is the spec's decision D3, log entry 1; a step as one tick is D2, log entry 26). -/
def Obligations.EveryStepAnswersNextState : Prop :=
  ∀ s : State, ∃ t, step s = .next t

/-! ### Faults over the whole instruction set -/

/-- R221, R223, R104 (with the spec's decisions D3, D9, D13, log entries 1, 13, 16): an instruction raises exactly the
fault of R221's table, and then nothing but the latch changes; otherwise it latches none. That RET raises nothing for a
popped address at or above `RAM_SIZE` is the spec's decision D12 (log entry 15). All four are choices. -/
def Obligations.FaultsAreExactlyTheTable : Prop :=
  ∀ (i : Instr) (s t : State), i.WellFormed → s.fault = none → exec i s = .next t →
    t.fault.map FaultRecord.kind = raisedFault i s ∧ (raisedFault i s ≠ none → t = { s with fault := t.fault })

/-- R222 (with the spec's decision D23, log entry 22): the record holds the faulting instruction's address and word, for
`AddressFault` the address its check tested, for `KeyIndexFault` the value of `Vx`. The target as the checked address is
90_conflicts.md C10 (log entry 22), the latch D3 (log entry 1); that there is a `KeyIndexFault` is D9 (log entry 13),
and the targets of `Fx1E`, `Fx33`, `Fx55`, `Fx65` follow their checks, D13 (log entry 16). -/
def Obligations.FaultRecordLocatesFault : Prop :=
  ∀ (i : Instr) (s t : State) (r : FaultRecord), i.WellFormed → s.fault = none → exec i s = .next t → t.fault = some r →
    r.pc = s.pc - 2 ∧ r.word = some (encode i) ∧
    (r.kind = .addressFault → r.target = checkedAddress i s) ∧ (r.kind ≠ .addressFault → r.target = none) ∧
    (r.kind = .keyIndexFault → ∃ x, (i = .skp x ∨ i = .sknp x) ∧ r.key = some (s.reg x)) ∧
    (r.kind ≠ .keyIndexFault → r.key = none)

/-! ### Frames and invariants over the whole instruction set -/

/-- R23, R26 to R30, R51: a completing instruction changes no register outside R23's write ports, no part of the state
that the spec does not let it write, no byte but the ones it stores, no stack entry but the one CALL pushes, and no
pixel but the sprite's and those CLS clears. These parts of the frame are choices: `Fx55` and `Fx65` keep `I` (the
spec's decision D10, log entry 14); a shift of `Vy` writes `Vx` and keeps `Vy` (its item G4, log entry 24); `Fx0A`
writes no register in its tick (D8, log entry 12); the sprite's pixels are the reference display's in the configured bit
order (D14, D29, log entries 6 and 3). That RET leaves the entry it pops is D11 (log entry 15), a sprite of no rows D24
(log entry 6). -/
def Obligations.InstructionsKeepTheirFrame : Prop :=
  ∀ (i : Instr) (s t : State), exec i s = .next t → t.fault = s.fault →
    RegsUnchanged (writtenRegs i) s t ∧ Unchanged (writtenParts i) s t ∧
    (∀ a, (∀ k, k < storedCount i → a ≠ effectiveAddress s k) → t.byteAt a = s.byteAt a) ∧
    (∀ j : Fin Config.stackDepth, ¬ (j.val = s.sp.val ∧ ∃ nnn, i = .call nnn) → t.stack[j] = s.stack[j]) ∧
    (∀ p, i ≠ .cls → (∀ x y n, i = .drw x y n → ¬ spriteCovers s x y n p) → t.screen.pixel p = s.screen.pixel p)

/-- A faulting instruction changes nothing but the latch (R223, R104; the spec's decision D3, log entry 1). That the
four of D13 check before any write is log entry 16. -/
def Obligations.FaultingInstructionHasNoEffect : Prop :=
  ∀ (i : Instr) (s t : State), exec i s = .next t → t.fault ≠ s.fault →
    Unchanged [.fault] s t ∧ t.mem = s.mem

/-- The invariant holds at reset. The canonical list is the model's form of memory (log entry 9), and the empty latch at
reset is the spec's decision D3 (log entry 8). -/
def Obligations.ResetMeetsInvariant : Prop := State.Inv State.reset

/-- Every step keeps the invariant (R25, R26, R27, R105, R222; memory in its canonical form). Its clauses rest on
choices: the record's fields on the spec's decision D23 (log entry 22) and the key clause on D9 (log entry 13); `I <
RAM_SIZE` on D13, the check of `Fx1E` (log entry 16), and on D10, `I` kept by `Fx55` and `Fx65` (log entry 14); `PC =
RAM_SIZE` allowed on 90_conflicts.md C2 (log entry 23) and on D12, no check in RET (log entry 15); the latch on D3 (log
entry 1); the canonical list on the model's form of memory (log entry 9). -/
def Obligations.EveryStepKeepsInvariant : Prop :=
  ∀ s t : State, s.Inv → step s = .next t → t.Inv

/-- R195, R34: no instruction reads `ST`. Two states that differ in `ST` alone step to states that differ in `ST` alone. -/
def Obligations.SoundTimerIsUnobservable : Prop :=
  ∀ (s t : State) (b : TimerVal), step s = .next t → ∃ b', step { s with st := b } = .next { t with st := b' }

/-- R27, R34: a stack entry at or above `SP` is never read. Two states that differ in such entries alone step to states
that differ in such entries alone. That a pop leaves the entry is the spec's decision D11 (log entry 15). -/
def Obligations.UnusedStackIsUnobservable : Prop :=
  ∀ (s t : State) (k : Vector StackEntry Config.stackDepth),
    (∀ j : Fin Config.stackDepth, j.val < s.sp.val → k[j] = s.stack[j]) → step s = .next t →
    ∃ k' : Vector StackEntry Config.stackDepth, step { s with stack := k } = .next { t with stack := k' } ∧
      ∀ j : Fin Config.stackDepth, j.val < t.sp.val → k'[j] = t.stack[j]

/-! ### Reset and the loader -/

/-- R33, R260: the reset values (`acc` by the spec's decision D25, log entry 8; `fault` by D3, log entry 8; the blank display
by D15, log entry 7; the font bytes are log entry 2's; the other parameters are D29 and D7, log entries 3 and 4). -/
def Obligations.ResetValues : Prop :=
  (∀ x, State.reset.reg x = 0) ∧ State.reset.i = 0 ∧ State.reset.pc = 0x200 ∧ State.reset.sp.val = 0 ∧
  (∀ k : Fin Config.stackDepth, State.reset.stack[k] = 0) ∧ State.reset.dt = 0 ∧ State.reset.st = 0 ∧
  State.reset.haltedOnKey = none ∧ State.reset.acc.val = 0 ∧ State.reset.fault = none ∧
  (∀ a, a < 80 → some (State.reset.byteAt a) = fontTable[a]?) ∧ (∀ a, 80 ≤ a → State.reset.byteAt a = 0) ∧
  (∀ p, State.reset.screen.pixel p = false) ∧ State.reset.params.shiftSource = .vx ∧
  State.reset.params.spriteBitOrder = .msbLeft ∧ State.reset.params.framePeriod.val = 1000 / 60 ∧
  State.reset.params.font.toList = fontTable

/-- R260, R261: the driver's reset puts every field of R20 at its reset value from any state, a faulted or waiting one
included, with the configured font in memory (log entry 2); the display keeps its pixels (N9, log entry 7), the model its
inputs and parameters. `acc` at 0 is D25 and the empty latch D3 (log entry 8). -/
def Obligations.DriverResetClearsBlock : Prop :=
  ∀ s : State, Unchanged [.screen, .ports, .params, .mem] State.reset (resetBlock s) ∧
    (∀ k : Fin (Config.fontGlyphs * Config.fontGlyphBytes),
      (resetBlock s).byteAt (Config.fontBase + k.val) = s.params.font[k]) ∧
    (∀ a, 80 ≤ a → (resetBlock s).byteAt a = 0) ∧
    Part.screen.same s (resetBlock s) ∧ Part.ports.same s (resetBlock s) ∧ Part.params.same s (resetBlock s) ∧
    Running (resetBlock s)

/-- R262: the loader puts the program's bytes at `PROGRAM_START` upward and changes no other byte; a program larger than
the map holds is refused. That the loader is outside the block and no step is log entry 10. -/
def Obligations.LoaderPlacesProgram : Prop :=
  ∀ (bytes : List Byte) (s : State),
    (bytes.length ≤ 3584 → ∃ t, loadProgram bytes s = some t ∧ Unchanged [.mem] s t ∧
      (∀ k : Fin bytes.length, t.byteAt (0x200 + k.val) = bytes[k]) ∧
      ∀ a, (a < 0x200 ∨ 0x200 + bytes.length ≤ a) → t.byteAt a = s.byteAt a) ∧
    (3584 < bytes.length → loadProgram bytes s = none)

/-! ### Encoding -/

/-- Decoding the encoding of a well-formed instruction gives it back, every operand at every value (R72, R74, R75). That
`nnn` and `n` are naturals bounded by `WellFormed` is the model's choice (log entry 11). -/
def Obligations.DecodeOfEncode : Prop :=
  ∀ i : Instr, i.WellFormed → decode (encode i) = .instr i

/-- Every word has one meaning: a decoded instruction is well formed and encodes to the word; any other word is
`Unknown` carrying itself (R75, R76). That the other words include `5xyn` and `9xyn` with `n` not 0 and the other `0nnn`
is the spec's decisions D5 and D6 (log entry 17). -/
def Obligations.EncodeOfDecode : Prop :=
  ∀ w : Word, (∃ i : Instr, decode w = .instr i ∧ i.WellFormed ∧ encode i = w) ∨ decode w = .unknown w

/-- R74, R75: a word decodes to an instruction exactly when it matches the instruction's row of the opcode map, it
matches no other row, and it is `Unknown` exactly when it matches none. That the `Unknown` words include `5xyn` and
`9xyn` with `n` not 0 and the other `0nnn` is the spec's decisions D5 and D6 (log entry 17). -/
def Obligations.DecodeAgreesWithOpcodeMap : Prop :=
  ∀ w : Word,
    (∀ i, decode w = .instr i → ∀ r ∈ opcodeRows, r.holds w = true ↔ r = i.opcodeRow) ∧
    (decode w = .unknown w ↔ ∀ r ∈ opcodeRows, r.holds w = false)

/-- Words written out from the opcode map, at least one of each family, and one Unknown (R74). -/
def Obligations.SampleWordsDecode : Prop :=
  decode 0x00E0 = .instr .cls ∧ decode 0x1FFF = .instr (.jmp 0xFFF) ∧ decode 0x3A5B = .instr (.seVxKk 0xA 0x5B) ∧
  decode 0x8AB7 = .instr (.subn 0xA 0xB) ∧ decode 0xD12F = .instr (.drw 1 2 15) ∧ decode 0xE1A1 = .instr (.sknp 1) ∧
  decode 0xF165 = .instr (.ldVxMem 1) ∧ decode 0x6FFF = .instr (.ldVxKk 0xF 0xFF) ∧
  decode 0xF115 = .instr (.ldDtVx 1) ∧ decode 0x8AB8 = .unknown 0x8AB8

/-! ### The parameters -/

/-- D19: the parameters are the machine's configuration; no step changes them (the model's own field, log entry 3). -/
def Obligations.EveryStepKeepsParameters : Prop :=
  ∀ s t : State, step s = .next t → t.params = s.params
end

