-- ==== Sys2Proof/Laws/Memory.lean ====
section
/-! SUPPORT. The memory's laws: a read after a write, of any memory; and that every operation keeps the canonical form. -/

namespace Sys2Proof.Machine

theorem Memory.read_of_unlisted {m : Memory} {a : Nat} (h : ∀ d ∈ m, d.1 ≠ a) : m.read a = Memory.unlisted a := by
  induction m with
  | nil => rfl
  | cons d m ih =>
    rw [Memory.read, if_neg (h d (by simp))]
    exact ih fun e he => h e (by simp [he])

theorem Memory.read_filter (m : Memory) {a c : Nat} (h : c ≠ a) :
    Memory.read (m.filter fun d => d.1 != a) c = m.read c := by
  induction m with
  | nil => rfl
  | cons d m ih =>
    by_cases hd : d.1 = a
    · simp [hd, Memory.read, ih, Ne.symm h]
    · simp [hd, Memory.read, ih]

theorem Memory.read_cons (m : Memory) (a : Nat) (b : Byte) (c : Nat) (h : ∀ d ∈ m, d.1 ≠ a) :
    (Memory.cons a b m).read c = if c = a then b else m.read c := by
  unfold Memory.cons
  split
  · next hb =>
    split
    · next hc => rw [hc, Memory.read_of_unlisted h, hb]
    · rfl
  · by_cases hc : c = a
    · simp [Memory.read, hc]
    · simp [Memory.read, hc, Ne.symm hc]

theorem Memory.read_place (m : Memory) (a : Nat) (b : Byte) (c : Nat) (h : ∀ d ∈ m, d.1 ≠ a) :
    (m.place a b).read c = if c = a then b else m.read c := by
  induction m with
  | nil => exact Memory.read_cons [] a b c h
  | cons d m ih =>
    unfold Memory.place
    split
    · exact Memory.read_cons (d :: m) a b c h
    · rw [Memory.read, ih fun e he => h e (by simp [he]), Memory.read]
      have := h d (by simp)
      by_cases hc : d.1 = c
      · simp [hc, show c ≠ a by omega]
      · simp [hc]

/-- A read after a write (R56): the byte written at the same address, the old byte at any other. -/
theorem Memory.read_write (m : Memory) (a : Nat) (b : Byte) (c : Nat) :
    (m.write a b).read c = if c = a then b else m.read c := by
  rw [Memory.write, Memory.read_place _ a b c (by simp)]
  split
  · rfl
  · next h => exact Memory.read_filter m h

theorem Memory.writeBytes_nil (m : Memory) (a : Nat) : m.writeBytes a [] = m := rfl

theorem Memory.writeBytes_cons (m : Memory) (a : Nat) (b : Byte) (bs : List Byte) :
    m.writeBytes a (b :: bs) = (m.write a b).writeBytes (a + 1) bs := rfl

/-- A read after a block write: the block's byte inside it, the old byte outside it (R173, R174). -/
theorem Memory.read_writeBytes (m : Memory) (a : Nat) (bs : List Byte) (c : Nat) :
    (m.writeBytes a bs).read c = if h : a ≤ c ∧ c < a + bs.length then bs[c - a] else m.read c := by
  induction bs generalizing m a with
  | nil => simp [Memory.writeBytes_nil, show ¬(a ≤ c ∧ c < a) by omega]
  | cons b bs ih =>
    rw [Memory.writeBytes_cons, ih, Memory.read_write]
    simp only [List.length_cons]
    by_cases h0 : c = a
    · subst h0; simp
    · by_cases h1 : a + 1 ≤ c ∧ c < a + 1 + bs.length
      · rw [dif_pos h1, dif_pos (by omega)]
        simp [show c - a = (c - (a + 1)) + 1 by omega]
      · rw [dif_neg h1, if_neg h0, dif_neg (by omega)]

@[simp] theorem Memory.readBytes_length (m : Memory) (a n : Nat) : (m.readBytes a n).length = n := by
  simp [Memory.readBytes]

@[simp] theorem Memory.readBytes_getElem (m : Memory) (a n k : Nat) (h : k < (m.readBytes a n).length) :
    (m.readBytes a n)[k] = m.read (a + k) := by
  simp [Memory.readBytes]

/-! ### The canonical form -/

theorem Memory.wf_nil : Memory.wf [] := ⟨.nil, by simp⟩

theorem Memory.wf_filter {m : Memory} (hm : m.wf) (p : Host.Cell → Bool) : Memory.wf (m.filter p) :=
  ⟨hm.1.sublist List.filter_sublist, fun c hc => hm.2 c (List.mem_of_mem_filter hc)⟩

theorem Memory.cons_wf {m : Memory} (hm : m.wf) {a : Nat} (ha : a < Config.ramSize) (b : Byte)
    (h : ∀ d ∈ m, a < d.1) : (Memory.cons a b m).wf := by
  unfold Memory.cons
  split
  · exact hm
  · next hb =>
    refine ⟨List.pairwise_cons.mpr ⟨fun d hd => h d hd, hm.1⟩, fun d hd => ?_⟩
    rcases List.mem_cons.mp hd with rfl | hd
    · exact ⟨ha, hb⟩
    · exact hm.2 d hd

theorem Memory.mem_place_fst {m : Memory} {a : Nat} {b : Byte} {d : Host.Cell} (h : d ∈ m.place a b) :
    d.1 = a ∨ d ∈ m := by
  have hc : ∀ m' : Memory, d ∈ Memory.cons a b m' → d.1 = a ∨ d ∈ m' := by
    intro m' h
    unfold Memory.cons at h
    split at h
    · exact .inr h
    · rcases List.mem_cons.mp h with rfl | h
      · exact .inl rfl
      · exact .inr h
  induction m with
  | nil => exact hc [] h
  | cons e m ih =>
    unfold Memory.place at h
    split at h
    · exact hc _ h
    · rcases List.mem_cons.mp h with rfl | h
      · simp
      · rcases ih h with h | h <;> simp [h]

theorem Memory.place_wf {m : Memory} (hm : m.wf) {a : Nat} (ha : a < Config.ramSize) (b : Byte)
    (hn : ∀ d ∈ m, d.1 ≠ a) : (m.place a b).wf := by
  induction m with
  | nil => exact Memory.cons_wf hm ha b (by simp)
  | cons d m ih =>
    obtain ⟨hp, hc⟩ := hm
    have hp' := List.pairwise_cons.mp hp
    unfold Memory.place
    split
    · next h =>
      refine Memory.cons_wf ⟨hp, hc⟩ ha b fun e he => ?_
      rcases List.mem_cons.mp he with rfl | he
      · exact h
      · exact h.trans (hp'.1 e he)
    · next h =>
      have hd := hn d (by simp)
      obtain ⟨ip, ic⟩ := ih ⟨hp'.2, fun e he => hc e (by simp [he])⟩ fun e he => hn e (by simp [he])
      refine ⟨List.pairwise_cons.mpr ⟨fun e he => ?_, ip⟩, fun e he => ?_⟩
      · rcases Memory.mem_place_fst he with h' | h'
        · show d.1 < e.1
          omega
        · exact hp'.1 e h'
      · rcases List.mem_cons.mp he with rfl | he
        · exact hc _ (by simp)
        · exact ic e he

/-- A write inside the array keeps the canonical form. -/
theorem Memory.write_wf {m : Memory} (hm : m.wf) {a : Nat} (ha : a < Config.ramSize) (b : Byte) : (m.write a b).wf :=
  Memory.place_wf (Memory.wf_filter hm _) ha b (by simp)

/-- A block of bytes written inside the array keeps the canonical form. -/
theorem Memory.writeBytes_wf {m : Memory} (hm : m.wf) {a : Nat} (bs : List Byte)
    (ha : a + bs.length ≤ Config.ramSize) : (m.writeBytes a bs).wf := by
  induction bs generalizing m a with
  | nil => exact hm
  | cons b bs ih =>
    rw [List.length_cons] at ha
    exact ih (Memory.write_wf hm (by omega) b) (by omega)

end Sys2Proof.Machine
end

