-- ==== Sys2Proof/Laws/Display.lean ====
section
/-! SUPPORT. The reference display: one toggle, a list of toggles, and the pixels of a sprite (R213). -/

namespace Sys2Proof.Machine

@[simp] theorem clearScreen_pixel (p : Pixel) : clearScreen.pixel p = false := by
  simp [clearScreen, Screen.pixel, Fin.getElem_fin, Vector.getElem_replicate]

/-- A toggle flips its pixel and no other. -/
theorem pixel_toggle (sc : Screen) (p q : Pixel) :
    (sc.toggle p).pixel q = if q = p then !sc.pixel q else sc.pixel q := by
  obtain ⟨px, py⟩ := p
  obtain ⟨qx, qy⟩ := q
  simp only [Screen.toggle, Screen.pixel, Fin.getElem_fin, Vector.getElem_set, Prod.mk.injEq, Fin.ext_iff]
  by_cases hy : py.val = qy.val
  · have : py = qy := Fin.ext hy
    subst this
    simp only [if_true, Vector.getElem_set, and_true]
    by_cases hx : px.val = qx.val
    · simp [hx]
    · simp [hx, Ne.symm hx]
  · simp [hy, Ne.symm hy]

/-- Two screens with the same pixels are the same screen. -/
theorem Screen.ext_pixel {a b : Screen} (h : ∀ p : Pixel, a.pixel p = b.pixel p) : a = b := by
  apply Vector.ext
  intro y hy
  apply Vector.ext
  intro x hx
  exact h (⟨x, hx⟩, ⟨y, hy⟩)

/-- Toggling a list of distinct pixels flips those pixels and no other; the answer is true exactly when one was lit. -/
theorem togglePixels_spec (sc : Screen) (ps : List Pixel) (h : ps.Nodup) :
    (∀ q, (togglePixels sc ps).1.pixel q = if q ∈ ps then !sc.pixel q else sc.pixel q) ∧
    ((togglePixels sc ps).2 = true ↔ ∃ q ∈ ps, sc.pixel q = true) := by
  induction ps generalizing sc with
  | nil => simp [togglePixels]
  | cons p ps ih =>
    obtain ⟨hp, hps⟩ := List.nodup_cons.mp h
    obtain ⟨h1, h2⟩ := ih (sc.toggle p) hps
    constructor
    · intro q
      simp only [togglePixels, h1, pixel_toggle, List.mem_cons]
      by_cases hq : q = p
      · subst hq; simp [hp]
      · simp [hq]
    · simp only [togglePixels, Bool.or_eq_true, h2, pixel_toggle, List.mem_cons, exists_eq_or_imp]
      refine or_congr_right (exists_congr fun q => and_congr_right fun hq => ?_)
      rw [if_neg (by rintro rfl; exact hp hq)]

/-- A pixel outside the list keeps its value, also where the list names a pixel twice. -/
theorem togglePixels_of_notMem (sc : Screen) (ps : List Pixel) {q : Pixel} (h : q ∉ ps) :
    (togglePixels sc ps).1.pixel q = sc.pixel q := by
  induction ps generalizing sc with
  | nil => rfl
  | cons p ps ih =>
    simp only [List.mem_cons, not_or] at h
    simp only [togglePixels, ih (sc.toggle p) h.2, pixel_toggle, if_neg h.1]

theorem mem_rowPixels (order : SpriteBitOrder) (x y r : Nat) (row : Byte) (p : Pixel) :
    p ∈ rowPixels order x y r row ↔ ∃ c, c < 8 ∧ spriteBit order row c = true ∧ spritePixel x y r c = p := by
  simp [rowPixels, and_assoc]

theorem rowPixels_nodup (order : SpriteBitOrder) (x y r : Nat) (row : Byte) : (rowPixels order x y r row).Nodup := by
  refine List.Nodup.map_on ?_ (List.Nodup.filter _ List.nodup_range)
  intro a ha b hb h
  simp only [List.mem_filter, List.mem_range] at ha hb
  have := congrArg (fun p : Pixel => p.1.val) h
  simp only [spritePixel, Fin.val_ofNat, Config.displayW] at this
  omega

/-- The pixels of a sprite: one for each set bit, column and row wrapping (R213). -/
theorem mem_spritePixels (order : SpriteBitOrder) (x y r : Nat) (rows : List Byte) (p : Pixel) :
    p ∈ spritePixels order x y r rows ↔
      ∃ k, ∃ h : k < rows.length, ∃ c, c < 8 ∧ spriteBit order rows[k] c = true ∧ spritePixel x y (r + k) c = p := by
  induction rows generalizing r with
  | nil => simp [spritePixels]
  | cons row rows ih =>
    rw [spritePixels, List.mem_append, mem_rowPixels, ih]
    constructor
    · rintro (⟨c, hc, hb, hp⟩ | ⟨k, hk, c, hc, hb, hp⟩)
      · exact ⟨0, by simp, c, hc, hb, hp⟩
      · exact ⟨k + 1, by simpa using hk, c, hc, by simpa using hb, by rw [← hp]; congr 1; omega⟩
    · rintro ⟨k, hk, c, hc, hb, hp⟩
      cases k with
      | zero => exact .inl ⟨c, hc, hb, hp⟩
      | succ k =>
        exact .inr ⟨k, by simpa using hk, c, hc, by simpa using hb, by rw [← hp]; congr 1; omega⟩

/-- The pixels `Dxyn` toggles are the ones its sprite covers (R212, R213). -/
theorem mem_spritePixels_iff_spriteCovers (s : State) (x y : RegIdx) (n : Nat) (p : Pixel) :
    p ∈ spritePixels s.params.spriteBitOrder (s.reg x).toNat (s.reg y).toNat 0 (s.mem.readBytes (effectiveAddress s 0) n) ↔
      spriteCovers s x y n p := by
  simp only [mem_spritePixels, spriteCovers, Memory.readBytes_length, Memory.readBytes_getElem, spritePixel, Prod.ext_iff,
    Fin.ext_iff, Fin.val_ofNat, State.byteAt, effectiveAddress, Nat.zero_add, Nat.add_zero, exists_prop]

/-- A sprite of at most 32 rows sets no pixel twice. -/
theorem spritePixels_nodup (order : SpriteBitOrder) (x y r : Nat) (rows : List Byte)
    (h : rows.length ≤ Config.displayH) : (spritePixels order x y r rows).Nodup := by
  induction rows generalizing r with
  | nil => simp [spritePixels]
  | cons row rows ih =>
    rw [List.length_cons] at h
    refine List.nodup_append.mpr ⟨rowPixels_nodup _ _ _ _ _, ih (r + 1) (by omega), ?_⟩
    rintro a ha b hb rfl
    obtain ⟨c, hc, -, hp⟩ := (mem_rowPixels _ _ _ _ _ _).mp ha
    obtain ⟨k, hk, d, hd, -, hq⟩ := (mem_spritePixels _ _ _ _ _ _).mp hb
    have hy := congrArg (fun p : Pixel => p.2.val) (hp.trans hq.symm)
    simp only [spritePixel, Fin.val_ofNat, Config.displayH] at hy h
    omega

end Sys2Proof.Machine
end

