-- ==== Sys2Proof/Laws/Encoding.lean ====
section
/-! SUPPORT. The fields of each format's words (R71, R72), as the decoder reads them, and the byte order (R52). -/

namespace Sys2Proof

/-! ### Well-formed operands (R71) -/

@[simp] theorem fitsAddress_iff (nnn : Nat) : fitsAddress nnn = true ↔ nnn < 4096 := by simp [fitsAddress]

@[simp] theorem fitsCount_iff (n : Nat) : fitsCount n = true ↔ n < 16 := by simp [fitsCount]

@[simp] theorem wellFormed_jmp (nnn : Nat) : (Instr.jmp nnn).WellFormed ↔ nnn < 4096 := fitsAddress_iff nnn

@[simp] theorem wellFormed_call (nnn : Nat) : (Instr.call nnn).WellFormed ↔ nnn < 4096 := fitsAddress_iff nnn

@[simp] theorem wellFormed_ldINnn (nnn : Nat) : (Instr.ldINnn nnn).WellFormed ↔ nnn < 4096 := fitsAddress_iff nnn

@[simp] theorem wellFormed_jmpV0 (nnn : Nat) : (Instr.jmpV0 nnn).WellFormed ↔ nnn < 4096 := fitsAddress_iff nnn

@[simp] theorem wellFormed_drw (x y : RegIdx) (n : Nat) : (Instr.drw x y n).WellFormed ↔ n < 16 := fitsCount_iff n

/-! ### Bytes of a word -/

/-- The range of an instruction word (R70), as numbers. -/
theorem word_toNat_lt (w : Word) : w.toNat < 65536 := w.isLt

theorem assembleWord_toNat (hi lo : Byte) : (assembleWord hi lo).toNat = hi.toNat * 256 + lo.toNat := by
  have := lo.isLt
  have e : (assembleWord hi lo).toNat = hi.toNat <<< 8 ||| lo.toNat := BitVec.toNat_append hi lo
  rw [e, ← Nat.shiftLeft_add_eq_or_of_lt (by simpa using this), Nat.shiftLeft_eq]

theorem highByte_toNat (w : Word) : (highByte w).toNat = w.toNat / 256 := by
  have := word_toNat_lt w
  simp only [highByte, BitVec.extractLsb'_toNat, Nat.shiftRight_eq_div_pow]
  omega

theorem lowByte_toNat (w : Word) : (lowByte w).toNat = w.toNat % 256 := by
  simp [lowByte, BitVec.extractLsb'_toNat]

@[simp] theorem assembleWord_highByte_lowByte (w : Word) : assembleWord (highByte w) (lowByte w) = w := by
  apply BitVec.eq_of_toNat_eq
  rw [assembleWord_toNat, highByte_toNat, lowByte_toNat]
  omega

@[simp] theorem highByte_assembleWord (hi lo : Byte) : highByte (assembleWord hi lo) = hi := by
  have := lo.isLt
  apply BitVec.eq_of_toNat_eq
  rw [highByte_toNat, assembleWord_toNat]
  omega

@[simp] theorem lowByte_assembleWord (hi lo : Byte) : lowByte (assembleWord hi lo) = lo := by
  have := lo.isLt
  apply BitVec.eq_of_toNat_eq
  rw [lowByte_toNat, assembleWord_toNat]
  omega

/-! ### Numbers of the formats -/

theorem regBits_toNat (x : RegIdx) : (regBits x).toNat = x.val := by
  have := x.isLt
  simp only [regBits, BitVec.toNat_ofNat, Config.numRegs] at *
  omega

theorem formatFA_toNat (op : BitVec 4) {nnn : Nat} (h : nnn < 4096) : (formatFA op nnn).toNat = op.toNat * 4096 + nnn := by
  simp only [formatFA, BitVec.toNat_append, BitVec.toNat_ofNat, Nat.reducePow, Nat.mod_eq_of_lt h]
  rw [← Nat.shiftLeft_add_eq_or_of_lt (by simpa using h), Nat.shiftLeft_eq]

theorem formatFXK_toNat (op : BitVec 4) (x : RegIdx) (kk : Byte) :
    (formatFXK op x kk).toNat = op.toNat * 4096 + x.val * 256 + kk.toNat := by
  have hx := x.isLt
  have hk := kk.isLt
  simp only [formatFXK, BitVec.toNat_append, regBits_toNat, Config.numRegs] at *
  rw [← Nat.shiftLeft_add_eq_or_of_lt (b := kk.toNat) (by simpa using hk)]
  rw [← Nat.shiftLeft_add_eq_or_of_lt (by simp only [Nat.shiftLeft_eq]; omega)]
  simp only [Nat.shiftLeft_eq]
  omega

theorem formatFXS_eq (op : BitVec 4) (x : RegIdx) (sel : Byte) : formatFXS op x sel = formatFXK op x sel := rfl

theorem formatFXY_toNat (op : BitVec 4) (x y : RegIdx) (n : BitVec 4) :
    (formatFXY op x y n).toNat = op.toNat * 4096 + x.val * 256 + y.val * 16 + n.toNat := by
  have hx := x.isLt
  have hy := y.isLt
  have hn := n.isLt
  simp only [formatFXY, BitVec.toNat_append, regBits_toNat, Config.numRegs] at *
  rw [← Nat.shiftLeft_add_eq_or_of_lt (b := n.toNat) (by simpa using hn)]
  rw [← Nat.shiftLeft_add_eq_or_of_lt (a := x.val) (by simp only [Nat.shiftLeft_eq]; omega)]
  rw [← Nat.shiftLeft_add_eq_or_of_lt (by simp only [Nat.shiftLeft_eq]; omega)]
  simp only [Nat.shiftLeft_eq]
  omega

/-! ### Fields as numbers -/

theorem opField_eq (w : Word) : opField w = w.toNat / 4096 := by
  have := word_toNat_lt w
  simp only [opField, BitVec.extractLsb'_toNat, Nat.shiftRight_eq_div_pow]
  omega

theorem xField_val (w : Word) : (xField w).val = w.toNat / 256 % 16 := by
  simp only [xField, BitVec.extractLsb'_toNat, Nat.shiftRight_eq_div_pow, Fin.val_ofNat, Config.numRegs]
  omega

theorem yField_val (w : Word) : (yField w).val = w.toNat / 16 % 16 := by
  simp only [yField, BitVec.extractLsb'_toNat, Nat.shiftRight_eq_div_pow, Fin.val_ofNat, Config.numRegs]
  omega

theorem nField_eq (w : Word) : nField w = w.toNat % 16 := by
  simp [nField, BitVec.extractLsb'_toNat]

theorem kkField_toNat (w : Word) : (kkField w).toNat = w.toNat % 256 := by
  simp [kkField, BitVec.extractLsb'_toNat]

theorem nnnField_eq (w : Word) : nnnField w = w.toNat % 4096 := by
  simp [nnnField, BitVec.extractLsb'_toNat]

/-! ### Fields of the formats -/

theorem xField_eq {w : Word} {x : RegIdx} (h : w.toNat / 256 % 16 = x.val) : xField w = x :=
  Fin.ext (by rw [xField_val, h])

theorem yField_eq {w : Word} {y : RegIdx} (h : w.toNat / 16 % 16 = y.val) : yField w = y :=
  Fin.ext (by rw [yField_val, h])

theorem kkField_eq {w : Word} {kk : Byte} (h : w.toNat % 256 = kk.toNat) : kkField w = kk :=
  BitVec.eq_of_toNat_eq (by rw [kkField_toNat, h])

/-- The fields of a format FA word. -/
theorem fields_formatFA (op : BitVec 4) {nnn : Nat} (h : nnn < 4096) :
    opField (formatFA op nnn) = op.toNat ∧ nnnField (formatFA op nnn) = nnn := by
  have := op.isLt
  rw [opField_eq, nnnField_eq, formatFA_toNat op h]
  omega

/-- The fields of a format FXK word; a format FXS word is one too, its selector in place of `kk`. -/
theorem fields_formatFXK (op : BitVec 4) (x : RegIdx) (kk : Byte) :
    opField (formatFXK op x kk) = op.toNat ∧ xField (formatFXK op x kk) = x ∧ kkField (formatFXK op x kk) = kk := by
  have := op.isLt
  have hx := x.isLt
  have := kk.isLt
  simp only [Config.numRegs] at hx
  refine ⟨?_, xField_eq ?_, kkField_eq ?_⟩ <;> (try rw [opField_eq]) <;> rw [formatFXK_toNat] <;> omega

/-- The fields of a format FXY or FXYN word. -/
theorem fields_formatFXY (op : BitVec 4) (x y : RegIdx) (n : BitVec 4) :
    opField (formatFXY op x y n) = op.toNat ∧ xField (formatFXY op x y n) = x ∧
      yField (formatFXY op x y n) = y ∧ nField (formatFXY op x y n) = n.toNat := by
  have := op.isLt
  have hx := x.isLt
  have hy := y.isLt
  have := n.isLt
  simp only [Config.numRegs] at hx hy
  refine ⟨?_, xField_eq ?_, yField_eq ?_, ?_⟩ <;> (try rw [opField_eq]) <;> (try rw [nField_eq]) <;>
    rw [formatFXY_toNat] <;> omega

end Sys2Proof
end

