-- ==== Sys2Proof/Laws/State.lean ====
section
/-! SUPPORT. One lemma for each field of State and each named update: what the field holds after the update. And the
two reads of a state, `reg` and `byteAt`, after each update; and the ranges of the registers. -/

namespace Sys2Proof.Machine

variable (s : State)

/-! ### The ranges of R21, R25, R26, R27 and R29, as numbers -/

/-- An instruction word is 2 bytes long (R70). -/
@[simp] theorem instrBytes_eq : Config.instrBytes = 2 := rfl

theorem reg_toNat_lt (x : RegIdx) : (s.reg x).toNat < 256 := (s.reg x).isLt
theorem i_toNat_lt : s.i.toNat < 65536 := s.i.isLt
theorem pc_toNat_lt : s.pc.toNat < 65536 := s.pc.isLt
theorem stack_toNat_lt (k : Fin Config.stackDepth) : s.stack[k].toNat < 65536 := s.stack[k].isLt
theorem dt_toNat_lt : s.dt.toNat < 256 := s.dt.isLt
theorem st_toNat_lt : s.st.toNat < 256 := s.st.isLt
theorem byteAt_toNat_lt (a : Nat) : (s.byteAt a).toNat < 256 := (s.byteAt a).isLt

/-! ### `setReg` -/

@[simp] theorem setReg_v (x : RegIdx) (b : RegVal) : (s.setReg x b).v = s.v.set x b := rfl
@[simp] theorem setReg_i (x : RegIdx) (b : RegVal) : (s.setReg x b).i = s.i := rfl
@[simp] theorem setReg_pc (x : RegIdx) (b : RegVal) : (s.setReg x b).pc = s.pc := rfl
@[simp] theorem setReg_stack (x : RegIdx) (b : RegVal) : (s.setReg x b).stack = s.stack := rfl
@[simp] theorem setReg_sp (x : RegIdx) (b : RegVal) : (s.setReg x b).sp = s.sp := rfl
@[simp] theorem setReg_dt (x : RegIdx) (b : RegVal) : (s.setReg x b).dt = s.dt := rfl
@[simp] theorem setReg_st (x : RegIdx) (b : RegVal) : (s.setReg x b).st = s.st := rfl
@[simp] theorem setReg_haltedOnKey (x : RegIdx) (b : RegVal) : (s.setReg x b).haltedOnKey = s.haltedOnKey := rfl
@[simp] theorem setReg_acc (x : RegIdx) (b : RegVal) : (s.setReg x b).acc = s.acc := rfl
@[simp] theorem setReg_mem (x : RegIdx) (b : RegVal) : (s.setReg x b).mem = s.mem := rfl
@[simp] theorem setReg_fault (x : RegIdx) (b : RegVal) : (s.setReg x b).fault = s.fault := rfl
@[simp] theorem setReg_screen (x : RegIdx) (b : RegVal) : (s.setReg x b).screen = s.screen := rfl
@[simp] theorem setReg_ports (x : RegIdx) (b : RegVal) : (s.setReg x b).ports = s.ports := rfl
@[simp] theorem setReg_inputs (x : RegIdx) (b : RegVal) : (s.setReg x b).inputs = s.inputs := rfl
@[simp] theorem setReg_draws (x : RegIdx) (b : RegVal) : (s.setReg x b).draws = s.draws := rfl
@[simp] theorem setReg_params (x : RegIdx) (b : RegVal) : (s.setReg x b).params = s.params := rfl
@[simp] theorem byteAt_setReg (x : RegIdx) (b : RegVal) (c : Nat) : (s.setReg x b).byteAt c = s.byteAt c := rfl

/-! ### `setI` -/

@[simp] theorem setI_v (w : IVal) : (s.setI w).v = s.v := rfl
@[simp] theorem setI_i (w : IVal) : (s.setI w).i = w := rfl
@[simp] theorem setI_pc (w : IVal) : (s.setI w).pc = s.pc := rfl
@[simp] theorem setI_stack (w : IVal) : (s.setI w).stack = s.stack := rfl
@[simp] theorem setI_sp (w : IVal) : (s.setI w).sp = s.sp := rfl
@[simp] theorem setI_dt (w : IVal) : (s.setI w).dt = s.dt := rfl
@[simp] theorem setI_st (w : IVal) : (s.setI w).st = s.st := rfl
@[simp] theorem setI_haltedOnKey (w : IVal) : (s.setI w).haltedOnKey = s.haltedOnKey := rfl
@[simp] theorem setI_acc (w : IVal) : (s.setI w).acc = s.acc := rfl
@[simp] theorem setI_mem (w : IVal) : (s.setI w).mem = s.mem := rfl
@[simp] theorem setI_fault (w : IVal) : (s.setI w).fault = s.fault := rfl
@[simp] theorem setI_screen (w : IVal) : (s.setI w).screen = s.screen := rfl
@[simp] theorem setI_ports (w : IVal) : (s.setI w).ports = s.ports := rfl
@[simp] theorem setI_inputs (w : IVal) : (s.setI w).inputs = s.inputs := rfl
@[simp] theorem setI_draws (w : IVal) : (s.setI w).draws = s.draws := rfl
@[simp] theorem setI_params (w : IVal) : (s.setI w).params = s.params := rfl
@[simp] theorem reg_setI (w : IVal) (y : RegIdx) : (s.setI w).reg y = s.reg y := rfl
@[simp] theorem byteAt_setI (w : IVal) (c : Nat) : (s.setI w).byteAt c = s.byteAt c := rfl

/-! ### `setPc` -/

@[simp] theorem setPc_v (w : PcVal) : (s.setPc w).v = s.v := rfl
@[simp] theorem setPc_i (w : PcVal) : (s.setPc w).i = s.i := rfl
@[simp] theorem setPc_pc (w : PcVal) : (s.setPc w).pc = w := rfl
@[simp] theorem setPc_stack (w : PcVal) : (s.setPc w).stack = s.stack := rfl
@[simp] theorem setPc_sp (w : PcVal) : (s.setPc w).sp = s.sp := rfl
@[simp] theorem setPc_dt (w : PcVal) : (s.setPc w).dt = s.dt := rfl
@[simp] theorem setPc_st (w : PcVal) : (s.setPc w).st = s.st := rfl
@[simp] theorem setPc_haltedOnKey (w : PcVal) : (s.setPc w).haltedOnKey = s.haltedOnKey := rfl
@[simp] theorem setPc_acc (w : PcVal) : (s.setPc w).acc = s.acc := rfl
@[simp] theorem setPc_mem (w : PcVal) : (s.setPc w).mem = s.mem := rfl
@[simp] theorem setPc_fault (w : PcVal) : (s.setPc w).fault = s.fault := rfl
@[simp] theorem setPc_screen (w : PcVal) : (s.setPc w).screen = s.screen := rfl
@[simp] theorem setPc_ports (w : PcVal) : (s.setPc w).ports = s.ports := rfl
@[simp] theorem setPc_inputs (w : PcVal) : (s.setPc w).inputs = s.inputs := rfl
@[simp] theorem setPc_draws (w : PcVal) : (s.setPc w).draws = s.draws := rfl
@[simp] theorem setPc_params (w : PcVal) : (s.setPc w).params = s.params := rfl
@[simp] theorem reg_setPc (w : PcVal) (y : RegIdx) : (s.setPc w).reg y = s.reg y := rfl
@[simp] theorem byteAt_setPc (w : PcVal) (c : Nat) : (s.setPc w).byteAt c = s.byteAt c := rfl

/-! ### `setDt` -/

@[simp] theorem setDt_v (b : TimerVal) : (s.setDt b).v = s.v := rfl
@[simp] theorem setDt_i (b : TimerVal) : (s.setDt b).i = s.i := rfl
@[simp] theorem setDt_pc (b : TimerVal) : (s.setDt b).pc = s.pc := rfl
@[simp] theorem setDt_stack (b : TimerVal) : (s.setDt b).stack = s.stack := rfl
@[simp] theorem setDt_sp (b : TimerVal) : (s.setDt b).sp = s.sp := rfl
@[simp] theorem setDt_dt (b : TimerVal) : (s.setDt b).dt = b := rfl
@[simp] theorem setDt_st (b : TimerVal) : (s.setDt b).st = s.st := rfl
@[simp] theorem setDt_haltedOnKey (b : TimerVal) : (s.setDt b).haltedOnKey = s.haltedOnKey := rfl
@[simp] theorem setDt_acc (b : TimerVal) : (s.setDt b).acc = s.acc := rfl
@[simp] theorem setDt_mem (b : TimerVal) : (s.setDt b).mem = s.mem := rfl
@[simp] theorem setDt_fault (b : TimerVal) : (s.setDt b).fault = s.fault := rfl
@[simp] theorem setDt_screen (b : TimerVal) : (s.setDt b).screen = s.screen := rfl
@[simp] theorem setDt_ports (b : TimerVal) : (s.setDt b).ports = s.ports := rfl
@[simp] theorem setDt_inputs (b : TimerVal) : (s.setDt b).inputs = s.inputs := rfl
@[simp] theorem setDt_draws (b : TimerVal) : (s.setDt b).draws = s.draws := rfl
@[simp] theorem setDt_params (b : TimerVal) : (s.setDt b).params = s.params := rfl
@[simp] theorem reg_setDt (b : TimerVal) (y : RegIdx) : (s.setDt b).reg y = s.reg y := rfl
@[simp] theorem byteAt_setDt (b : TimerVal) (c : Nat) : (s.setDt b).byteAt c = s.byteAt c := rfl

/-! ### `setSt` -/

@[simp] theorem setSt_v (b : TimerVal) : (s.setSt b).v = s.v := rfl
@[simp] theorem setSt_i (b : TimerVal) : (s.setSt b).i = s.i := rfl
@[simp] theorem setSt_pc (b : TimerVal) : (s.setSt b).pc = s.pc := rfl
@[simp] theorem setSt_stack (b : TimerVal) : (s.setSt b).stack = s.stack := rfl
@[simp] theorem setSt_sp (b : TimerVal) : (s.setSt b).sp = s.sp := rfl
@[simp] theorem setSt_dt (b : TimerVal) : (s.setSt b).dt = s.dt := rfl
@[simp] theorem setSt_st (b : TimerVal) : (s.setSt b).st = b := rfl
@[simp] theorem setSt_haltedOnKey (b : TimerVal) : (s.setSt b).haltedOnKey = s.haltedOnKey := rfl
@[simp] theorem setSt_acc (b : TimerVal) : (s.setSt b).acc = s.acc := rfl
@[simp] theorem setSt_mem (b : TimerVal) : (s.setSt b).mem = s.mem := rfl
@[simp] theorem setSt_fault (b : TimerVal) : (s.setSt b).fault = s.fault := rfl
@[simp] theorem setSt_screen (b : TimerVal) : (s.setSt b).screen = s.screen := rfl
@[simp] theorem setSt_ports (b : TimerVal) : (s.setSt b).ports = s.ports := rfl
@[simp] theorem setSt_inputs (b : TimerVal) : (s.setSt b).inputs = s.inputs := rfl
@[simp] theorem setSt_draws (b : TimerVal) : (s.setSt b).draws = s.draws := rfl
@[simp] theorem setSt_params (b : TimerVal) : (s.setSt b).params = s.params := rfl
@[simp] theorem reg_setSt (b : TimerVal) (y : RegIdx) : (s.setSt b).reg y = s.reg y := rfl
@[simp] theorem byteAt_setSt (b : TimerVal) (c : Nat) : (s.setSt b).byteAt c = s.byteAt c := rfl

/-! ### `setHalted` -/

@[simp] theorem setHalted_v (h : Option RegIdx) : (s.setHalted h).v = s.v := rfl
@[simp] theorem setHalted_i (h : Option RegIdx) : (s.setHalted h).i = s.i := rfl
@[simp] theorem setHalted_pc (h : Option RegIdx) : (s.setHalted h).pc = s.pc := rfl
@[simp] theorem setHalted_stack (h : Option RegIdx) : (s.setHalted h).stack = s.stack := rfl
@[simp] theorem setHalted_sp (h : Option RegIdx) : (s.setHalted h).sp = s.sp := rfl
@[simp] theorem setHalted_dt (h : Option RegIdx) : (s.setHalted h).dt = s.dt := rfl
@[simp] theorem setHalted_st (h : Option RegIdx) : (s.setHalted h).st = s.st := rfl
@[simp] theorem setHalted_haltedOnKey (h : Option RegIdx) : (s.setHalted h).haltedOnKey = h := rfl
@[simp] theorem setHalted_acc (h : Option RegIdx) : (s.setHalted h).acc = s.acc := rfl
@[simp] theorem setHalted_mem (h : Option RegIdx) : (s.setHalted h).mem = s.mem := rfl
@[simp] theorem setHalted_fault (h : Option RegIdx) : (s.setHalted h).fault = s.fault := rfl
@[simp] theorem setHalted_screen (h : Option RegIdx) : (s.setHalted h).screen = s.screen := rfl
@[simp] theorem setHalted_ports (h : Option RegIdx) : (s.setHalted h).ports = s.ports := rfl
@[simp] theorem setHalted_inputs (h : Option RegIdx) : (s.setHalted h).inputs = s.inputs := rfl
@[simp] theorem setHalted_draws (h : Option RegIdx) : (s.setHalted h).draws = s.draws := rfl
@[simp] theorem setHalted_params (h : Option RegIdx) : (s.setHalted h).params = s.params := rfl
@[simp] theorem reg_setHalted (h : Option RegIdx) (y : RegIdx) : (s.setHalted h).reg y = s.reg y := rfl
@[simp] theorem byteAt_setHalted (h : Option RegIdx) (c : Nat) : (s.setHalted h).byteAt c = s.byteAt c := rfl

/-! ### `storeBytes` -/

@[simp] theorem storeBytes_v (a : Nat) (bs : List Byte) : (s.storeBytes a bs).v = s.v := rfl
@[simp] theorem storeBytes_i (a : Nat) (bs : List Byte) : (s.storeBytes a bs).i = s.i := rfl
@[simp] theorem storeBytes_pc (a : Nat) (bs : List Byte) : (s.storeBytes a bs).pc = s.pc := rfl
@[simp] theorem storeBytes_stack (a : Nat) (bs : List Byte) : (s.storeBytes a bs).stack = s.stack := rfl
@[simp] theorem storeBytes_sp (a : Nat) (bs : List Byte) : (s.storeBytes a bs).sp = s.sp := rfl
@[simp] theorem storeBytes_dt (a : Nat) (bs : List Byte) : (s.storeBytes a bs).dt = s.dt := rfl
@[simp] theorem storeBytes_st (a : Nat) (bs : List Byte) : (s.storeBytes a bs).st = s.st := rfl
@[simp] theorem storeBytes_haltedOnKey (a : Nat) (bs : List Byte) : (s.storeBytes a bs).haltedOnKey = s.haltedOnKey := rfl
@[simp] theorem storeBytes_acc (a : Nat) (bs : List Byte) : (s.storeBytes a bs).acc = s.acc := rfl
@[simp] theorem storeBytes_mem (a : Nat) (bs : List Byte) : (s.storeBytes a bs).mem = s.mem.writeBytes a bs := rfl
@[simp] theorem storeBytes_fault (a : Nat) (bs : List Byte) : (s.storeBytes a bs).fault = s.fault := rfl
@[simp] theorem storeBytes_screen (a : Nat) (bs : List Byte) : (s.storeBytes a bs).screen = s.screen := rfl
@[simp] theorem storeBytes_ports (a : Nat) (bs : List Byte) : (s.storeBytes a bs).ports = s.ports := rfl
@[simp] theorem storeBytes_inputs (a : Nat) (bs : List Byte) : (s.storeBytes a bs).inputs = s.inputs := rfl
@[simp] theorem storeBytes_draws (a : Nat) (bs : List Byte) : (s.storeBytes a bs).draws = s.draws := rfl
@[simp] theorem storeBytes_params (a : Nat) (bs : List Byte) : (s.storeBytes a bs).params = s.params := rfl
@[simp] theorem reg_storeBytes (a : Nat) (bs : List Byte) (y : RegIdx) : (s.storeBytes a bs).reg y = s.reg y := rfl

/-! ### `setStack` -/

@[simp] theorem setStack_v (st : Vector StackEntry Config.stackDepth) (sp : Fin (Config.stackDepth + 1)) : (s.setStack st sp).v = s.v := rfl
@[simp] theorem setStack_i (st : Vector StackEntry Config.stackDepth) (sp : Fin (Config.stackDepth + 1)) : (s.setStack st sp).i = s.i := rfl
@[simp] theorem setStack_pc (st : Vector StackEntry Config.stackDepth) (sp : Fin (Config.stackDepth + 1)) : (s.setStack st sp).pc = s.pc := rfl
@[simp] theorem setStack_stack (st : Vector StackEntry Config.stackDepth) (sp : Fin (Config.stackDepth + 1)) : (s.setStack st sp).stack = st := rfl
@[simp] theorem setStack_sp (st : Vector StackEntry Config.stackDepth) (sp : Fin (Config.stackDepth + 1)) : (s.setStack st sp).sp = sp := rfl
@[simp] theorem setStack_dt (st : Vector StackEntry Config.stackDepth) (sp : Fin (Config.stackDepth + 1)) : (s.setStack st sp).dt = s.dt := rfl
@[simp] theorem setStack_st (st : Vector StackEntry Config.stackDepth) (sp : Fin (Config.stackDepth + 1)) : (s.setStack st sp).st = s.st := rfl
@[simp] theorem setStack_haltedOnKey (st : Vector StackEntry Config.stackDepth) (sp : Fin (Config.stackDepth + 1)) : (s.setStack st sp).haltedOnKey = s.haltedOnKey := rfl
@[simp] theorem setStack_acc (st : Vector StackEntry Config.stackDepth) (sp : Fin (Config.stackDepth + 1)) : (s.setStack st sp).acc = s.acc := rfl
@[simp] theorem setStack_mem (st : Vector StackEntry Config.stackDepth) (sp : Fin (Config.stackDepth + 1)) : (s.setStack st sp).mem = s.mem := rfl
@[simp] theorem setStack_fault (st : Vector StackEntry Config.stackDepth) (sp : Fin (Config.stackDepth + 1)) : (s.setStack st sp).fault = s.fault := rfl
@[simp] theorem setStack_screen (st : Vector StackEntry Config.stackDepth) (sp : Fin (Config.stackDepth + 1)) : (s.setStack st sp).screen = s.screen := rfl
@[simp] theorem setStack_ports (st : Vector StackEntry Config.stackDepth) (sp : Fin (Config.stackDepth + 1)) : (s.setStack st sp).ports = s.ports := rfl
@[simp] theorem setStack_inputs (st : Vector StackEntry Config.stackDepth) (sp : Fin (Config.stackDepth + 1)) : (s.setStack st sp).inputs = s.inputs := rfl
@[simp] theorem setStack_draws (st : Vector StackEntry Config.stackDepth) (sp : Fin (Config.stackDepth + 1)) : (s.setStack st sp).draws = s.draws := rfl
@[simp] theorem setStack_params (st : Vector StackEntry Config.stackDepth) (sp : Fin (Config.stackDepth + 1)) : (s.setStack st sp).params = s.params := rfl
@[simp] theorem reg_setStack (st : Vector StackEntry Config.stackDepth) (sp : Fin (Config.stackDepth + 1)) (y : RegIdx) : (s.setStack st sp).reg y = s.reg y := rfl
@[simp] theorem byteAt_setStack (st : Vector StackEntry Config.stackDepth) (sp : Fin (Config.stackDepth + 1)) (c : Nat) : (s.setStack st sp).byteAt c = s.byteAt c := rfl

/-! ### `setScreen` -/

@[simp] theorem setScreen_v (sc : Screen) : (s.setScreen sc).v = s.v := rfl
@[simp] theorem setScreen_i (sc : Screen) : (s.setScreen sc).i = s.i := rfl
@[simp] theorem setScreen_pc (sc : Screen) : (s.setScreen sc).pc = s.pc := rfl
@[simp] theorem setScreen_stack (sc : Screen) : (s.setScreen sc).stack = s.stack := rfl
@[simp] theorem setScreen_sp (sc : Screen) : (s.setScreen sc).sp = s.sp := rfl
@[simp] theorem setScreen_dt (sc : Screen) : (s.setScreen sc).dt = s.dt := rfl
@[simp] theorem setScreen_st (sc : Screen) : (s.setScreen sc).st = s.st := rfl
@[simp] theorem setScreen_haltedOnKey (sc : Screen) : (s.setScreen sc).haltedOnKey = s.haltedOnKey := rfl
@[simp] theorem setScreen_acc (sc : Screen) : (s.setScreen sc).acc = s.acc := rfl
@[simp] theorem setScreen_mem (sc : Screen) : (s.setScreen sc).mem = s.mem := rfl
@[simp] theorem setScreen_fault (sc : Screen) : (s.setScreen sc).fault = s.fault := rfl
@[simp] theorem setScreen_screen (sc : Screen) : (s.setScreen sc).screen = sc := rfl
@[simp] theorem setScreen_ports (sc : Screen) : (s.setScreen sc).ports = s.ports := rfl
@[simp] theorem setScreen_inputs (sc : Screen) : (s.setScreen sc).inputs = s.inputs := rfl
@[simp] theorem setScreen_draws (sc : Screen) : (s.setScreen sc).draws = s.draws := rfl
@[simp] theorem setScreen_params (sc : Screen) : (s.setScreen sc).params = s.params := rfl
@[simp] theorem reg_setScreen (sc : Screen) (y : RegIdx) : (s.setScreen sc).reg y = s.reg y := rfl
@[simp] theorem byteAt_setScreen (sc : Screen) (c : Nat) : (s.setScreen sc).byteAt c = s.byteAt c := rfl

/-! ### `latch` -/

@[simp] theorem latch_v (r : FaultRecord) : (latch r s).v = s.v := rfl
@[simp] theorem latch_i (r : FaultRecord) : (latch r s).i = s.i := rfl
@[simp] theorem latch_pc (r : FaultRecord) : (latch r s).pc = s.pc := rfl
@[simp] theorem latch_stack (r : FaultRecord) : (latch r s).stack = s.stack := rfl
@[simp] theorem latch_sp (r : FaultRecord) : (latch r s).sp = s.sp := rfl
@[simp] theorem latch_dt (r : FaultRecord) : (latch r s).dt = s.dt := rfl
@[simp] theorem latch_st (r : FaultRecord) : (latch r s).st = s.st := rfl
@[simp] theorem latch_haltedOnKey (r : FaultRecord) : (latch r s).haltedOnKey = s.haltedOnKey := rfl
@[simp] theorem latch_acc (r : FaultRecord) : (latch r s).acc = s.acc := rfl
@[simp] theorem latch_mem (r : FaultRecord) : (latch r s).mem = s.mem := rfl
@[simp] theorem latch_fault (r : FaultRecord) : (latch r s).fault = some r := rfl
@[simp] theorem latch_screen (r : FaultRecord) : (latch r s).screen = s.screen := rfl
@[simp] theorem latch_ports (r : FaultRecord) : (latch r s).ports = s.ports := rfl
@[simp] theorem latch_inputs (r : FaultRecord) : (latch r s).inputs = s.inputs := rfl
@[simp] theorem latch_draws (r : FaultRecord) : (latch r s).draws = s.draws := rfl
@[simp] theorem latch_params (r : FaultRecord) : (latch r s).params = s.params := rfl
@[simp] theorem reg_latch (r : FaultRecord) (y : RegIdx) : (latch r s).reg y = s.reg y := rfl
@[simp] theorem byteAt_latch (r : FaultRecord) (c : Nat) : (latch r s).byteAt c = s.byteAt c := rfl

/-! ### `loadRegsUpTo` -/

@[simp] theorem loadRegsUpTo_v (x : RegIdx) (a : Nat) : (loadRegsUpTo x a s).v = Vector.ofFn fun j : RegIdx => if j ≤ x then s.byteAt (a + j.val) else s.reg j := rfl
@[simp] theorem loadRegsUpTo_i (x : RegIdx) (a : Nat) : (loadRegsUpTo x a s).i = s.i := rfl
@[simp] theorem loadRegsUpTo_pc (x : RegIdx) (a : Nat) : (loadRegsUpTo x a s).pc = s.pc := rfl
@[simp] theorem loadRegsUpTo_stack (x : RegIdx) (a : Nat) : (loadRegsUpTo x a s).stack = s.stack := rfl
@[simp] theorem loadRegsUpTo_sp (x : RegIdx) (a : Nat) : (loadRegsUpTo x a s).sp = s.sp := rfl
@[simp] theorem loadRegsUpTo_dt (x : RegIdx) (a : Nat) : (loadRegsUpTo x a s).dt = s.dt := rfl
@[simp] theorem loadRegsUpTo_st (x : RegIdx) (a : Nat) : (loadRegsUpTo x a s).st = s.st := rfl
@[simp] theorem loadRegsUpTo_haltedOnKey (x : RegIdx) (a : Nat) : (loadRegsUpTo x a s).haltedOnKey = s.haltedOnKey := rfl
@[simp] theorem loadRegsUpTo_acc (x : RegIdx) (a : Nat) : (loadRegsUpTo x a s).acc = s.acc := rfl
@[simp] theorem loadRegsUpTo_mem (x : RegIdx) (a : Nat) : (loadRegsUpTo x a s).mem = s.mem := rfl
@[simp] theorem loadRegsUpTo_fault (x : RegIdx) (a : Nat) : (loadRegsUpTo x a s).fault = s.fault := rfl
@[simp] theorem loadRegsUpTo_screen (x : RegIdx) (a : Nat) : (loadRegsUpTo x a s).screen = s.screen := rfl
@[simp] theorem loadRegsUpTo_ports (x : RegIdx) (a : Nat) : (loadRegsUpTo x a s).ports = s.ports := rfl
@[simp] theorem loadRegsUpTo_inputs (x : RegIdx) (a : Nat) : (loadRegsUpTo x a s).inputs = s.inputs := rfl
@[simp] theorem loadRegsUpTo_draws (x : RegIdx) (a : Nat) : (loadRegsUpTo x a s).draws = s.draws := rfl
@[simp] theorem loadRegsUpTo_params (x : RegIdx) (a : Nat) : (loadRegsUpTo x a s).params = s.params := rfl
@[simp] theorem byteAt_loadRegsUpTo (x : RegIdx) (a : Nat) (c : Nat) : (loadRegsUpTo x a s).byteAt c = s.byteAt c := rfl

/-! ### Registers after a register write -/

theorem reg_setReg (x y : RegIdx) (b : RegVal) : (s.setReg x b).reg y = if x = y then b else s.reg y := by
  simp only [State.reg, setReg_v, Fin.getElem_fin, Vector.getElem_set]
  simp [Fin.ext_iff]

@[simp] theorem reg_setReg_same (x : RegIdx) (b : RegVal) : (s.setReg x b).reg x = b := by simp [reg_setReg]

theorem reg_setReg_other {x y : RegIdx} (h : y ≠ x) (b : RegVal) : (s.setReg x b).reg y = s.reg y := by
  simp [reg_setReg, Ne.symm h]

/-- `Fx65`'s write: the bytes up to `x`, the registers above it unchanged (R175). -/
@[simp] theorem reg_loadRegsUpTo (x : RegIdx) (a : Nat) (j : RegIdx) :
    (loadRegsUpTo x a s).reg j = if j ≤ x then s.byteAt (a + j.val) else s.reg j := by
  simp [State.reg, Fin.getElem_fin, Vector.getElem_ofFn]

end Sys2Proof.Machine
end

