-- ==== Sys2Proof/Laws/Ops.lean ====
section
/-! SUPPORT. What each shared operation can do, once: the primitives of 40_cycle.md, the checked access, the ALU's
write-back, the operand forms. -/

namespace Sys2Proof.Machine

/-! ### Completing or latching -/

@[simp] theorem complete_ok (s t : State) : complete s (.ok t) = .next t := rfl

@[simp] theorem complete_error (s : State) (r : FaultRecord) : complete s (.error r) = .next (latch r s) := rfl

/-- An instruction leaves its own state, or the state before it with a record latched (R104). -/
theorem complete_cases {s t : State} {a : Attempt} (h : complete s a = .next t) :
    a = .ok t ∨ ∃ r, a = .error r ∧ t = latch r s := by
  cases a with
  | ok u => exact .inl (by simpa using h)
  | error r => exact .inr ⟨r, rfl, by simpa using h.symm⟩

/-! ### The primitives -/

theorem jump_of_lt {addr : Nat} (h : addr < Config.ramSize) (i : Instr) (s : State) :
    jump i addr s = .ok (s.setPc (BitVec.ofNat Config.pcWidth addr)) := if_neg (by omega)

theorem jump_of_ge {addr : Nat} (h : Config.ramSize ≤ addr) (i : Instr) (s : State) :
    jump i addr s = .error (faultOf i .addressFault (some addr) none s) := if_pos h

theorem pushReturn_of_lt {s : State} (h : s.sp.val < Config.stackDepth) (i : Instr) (addr : PcVal) :
    pushReturn i addr s =
      .ok (s.setStack (s.stack.set s.sp.val addr h) ⟨s.sp.val + 1, Nat.succ_lt_succ h⟩) := dif_pos h

theorem pushReturn_full {s : State} (h : s.sp.val = Config.stackDepth) (i : Instr) (addr : PcVal) :
    pushReturn i addr s = .error (faultOf i .stackOverflow none none s) := dif_neg (by omega)

theorem popReturn_empty {s : State} (h : s.sp.val = 0) (i : Instr) :
    popReturn i s = .error (faultOf i .stackUnderflow none none s) := dif_pos h

theorem popReturn_of_pos {s : State} (k : Fin Config.stackDepth) (h : s.sp.val = k.val + 1) (i : Instr) :
    popReturn i s = .ok (s.stack[k], s.setStack s.stack ⟨k.val, Nat.lt_succ_of_lt k.isLt⟩) := by
  unfold popReturn
  rw [dif_neg (by omega)]
  simp [h]

theorem skip_false (i : Instr) (s : State) : skip i false s = .ok s := rfl

theorem skip_true (i : Instr) (s : State) : skip i true s = jump i (s.pc.toNat + Config.instrBytes) s := rfl

theorem checked_of_lt {last : Nat} (h : last < Config.ramSize) (i : Instr) (u s : State) :
    checked i last u s = .ok u := if_neg (by omega)

theorem checked_of_ge {last : Nat} (h : Config.ramSize ≤ last) (i : Instr) (u s : State) :
    checked i last u s = .error (faultOf i .addressFault (some last) none s) := if_pos h

theorem keySkip_of_lt {s : State} {x : RegIdx} (k : KeyCode) (h : (s.reg x).toNat = k.val) (i : Instr) (wanted : Bool) :
    keySkip i x wanted s = skip i (isKeyDown k s == wanted) s := by
  unfold keySkip
  rw [dif_pos (h ▸ k.isLt)]
  congr 3
  exact Fin.ext h

theorem keySkip_of_ge {s : State} {x : RegIdx} (h : Config.keyCount ≤ (s.reg x).toNat) (i : Instr) (wanted : Bool) :
    keySkip i x wanted s = .error (faultOf i .keyIndexFault none (some (s.reg x)) s) := dif_neg (by omega)

/-! ### What a primitive that succeeds leaves -/

theorem jump_ok {i : Instr} {addr : Nat} {s t : State} (h : jump i addr s = .ok t) :
    addr < Config.ramSize ∧ t = s.setPc (BitVec.ofNat Config.pcWidth addr) := by
  unfold jump at h
  split at h
  · cases h
  · exact ⟨by omega, by cases h; rfl⟩

theorem jump_error {i : Instr} {addr : Nat} {s : State} {r : FaultRecord} (h : jump i addr s = .error r) :
    Config.ramSize ≤ addr ∧ r = faultOf i .addressFault (some addr) none s := by
  unfold jump at h
  split at h
  · exact ⟨‹_›, by cases h; rfl⟩
  · cases h

theorem skip_ok {i : Instr} {cond : Bool} {s t : State} (h : skip i cond s = .ok t) :
    (cond = false ∧ t = s) ∨ (cond = true ∧ s.pc.toNat + Config.instrBytes < Config.ramSize ∧
      t = s.setPc (BitVec.ofNat Config.pcWidth (s.pc.toNat + Config.instrBytes))) := by
  cases cond with
  | false => exact .inl ⟨rfl, by cases h; rfl⟩
  | true => exact .inr ⟨rfl, jump_ok h⟩

theorem skip_error {i : Instr} {cond : Bool} {s : State} {r : FaultRecord} (h : skip i cond s = .error r) :
    cond = true ∧ Config.ramSize ≤ s.pc.toNat + Config.instrBytes ∧
      r = faultOf i .addressFault (some (s.pc.toNat + Config.instrBytes)) none s := by
  cases cond with
  | false => cases h
  | true => exact ⟨rfl, jump_error h⟩

theorem checked_ok {i : Instr} {last : Nat} {u s t : State} (h : checked i last u s = .ok t) :
    last < Config.ramSize ∧ t = u := by
  unfold checked at h
  split at h
  · cases h
  · exact ⟨by omega, by cases h; rfl⟩

theorem checked_error {i : Instr} {last : Nat} {u s : State} {r : FaultRecord} (h : checked i last u s = .error r) :
    Config.ramSize ≤ last ∧ r = faultOf i .addressFault (some last) none s := by
  unfold checked at h
  split at h
  · exact ⟨‹_›, by cases h; rfl⟩
  · cases h

theorem pushReturn_ok {i : Instr} {addr : PcVal} {s t : State} (h : pushReturn i addr s = .ok t) :
    ∃ hlt : s.sp.val < Config.stackDepth,
      t = s.setStack (s.stack.set s.sp.val addr hlt) ⟨s.sp.val + 1, Nat.succ_lt_succ hlt⟩ := by
  unfold pushReturn at h
  split at h
  · injection h with h
    exact ⟨_, h.symm⟩
  · cases h

theorem popReturn_ok {i : Instr} {s : State} {p : StackEntry × State} (h : popReturn i s = .ok p) :
    ∃ k : Fin Config.stackDepth, s.sp.val = k.val + 1 ∧
      p = (s.stack[k], s.setStack s.stack ⟨k.val, Nat.lt_succ_of_lt k.isLt⟩) := by
  by_cases h0 : s.sp.val = 0
  · rw [popReturn_empty h0] at h
    cases h
  · have hlt := s.sp.isLt
    simp only [Config.stackDepth] at hlt
    let k : Fin Config.stackDepth := ⟨s.sp.val - 1, by simp only [Config.stackDepth]; omega⟩
    have hk : s.sp.val = k.val + 1 := by show _ = s.sp.val - 1 + 1; omega
    rw [popReturn_of_pos k hk i] at h
    injection h with h
    exact ⟨k, hk, h.symm⟩

theorem keySkip_ok {i : Instr} {x : RegIdx} {wanted : Bool} {s t : State} (h : keySkip i x wanted s = .ok t) :
    ∃ k : KeyCode, (s.reg x).toNat = k.val ∧ skip i (isKeyDown k s == wanted) s = .ok t := by
  unfold keySkip at h
  split at h
  · next hlt => exact ⟨⟨(s.reg x).toNat, hlt⟩, rfl, h⟩
  · cases h

theorem keySkip_error {i : Instr} {x : RegIdx} {wanted : Bool} {s : State} {r : FaultRecord}
    (h : keySkip i x wanted s = .error r) :
    (Config.keyCount ≤ (s.reg x).toNat ∧ r = faultOf i .keyIndexFault none (some (s.reg x)) s) ∨
    ∃ k : KeyCode, (s.reg x).toNat = k.val ∧ skip i (isKeyDown k s == wanted) s = .error r := by
  unfold keySkip at h
  split at h
  · next hlt => exact .inr ⟨⟨(s.reg x).toNat, hlt⟩, rfl, h⟩
  · next hge => exact .inl ⟨by omega, by cases h; rfl⟩

/-! ### The ALU's write-back -/

/-- R151, R22: with a flag, `VF` ends as the flag, whatever `x` is. -/
theorem reg_runAlu (op : AluOp) (x : RegIdx) (a b : RegVal) (s : State) (y : RegIdx) :
    (runAlu op x a b s).reg y =
      match aluFlag op a b with
      | none => if x = y then aluResult op a b else s.reg y
      | some f => if vf = y then flagByte f else if x = y then aluResult op a b else s.reg y := by
  unfold runAlu writeFlag
  cases aluFlag op a b <;> simp [reg_setReg]

/-- The ALU's write-back writes nothing but registers. -/
theorem runAlu_frame (op : AluOp) (x : RegIdx) (a b : RegVal) (s : State) :
    runAlu op x a b s = { s with v := (runAlu op x a b s).v } := by
  unfold runAlu writeFlag
  cases aluFlag op a b <;> rfl

/-! ### Operand forms -/

@[simp] theorem regsUpTo_length (x : RegIdx) (s : State) : (regsUpTo x s).length = x.val + 1 := by
  have := x.isLt
  simp only [regsUpTo, List.length_take, Vector.length_toList, Config.numRegs] at *
  omega

theorem regsUpTo_getElem (x : RegIdx) (s : State) (k : Nat) (h : k < (regsUpTo x s).length) :
    (regsUpTo x s)[k] = s.reg ⟨k, by have := x.isLt; simp at h; omega⟩ := by
  simp [regsUpTo, State.reg]

@[simp] theorem bcdDigits_length (b : RegVal) : (bcdDigits b).length = 3 := rfl

end Sys2Proof.Machine
end

