-- ==== Sys2Proof/Laws/PerInstr.lean ====
section
/-! SUPPORT. The family RowBits: the word of an instruction shows the fixed bits of its own row of the opcode map
(R74), whatever its operands are. -/

namespace Sys2Proof.Laws.RowBits

/-- The word of `i` matches the row of `i`. -/
def Statement (i : Instr) : Prop := i.opcodeRow.holds (encode i) = true

/-! ### The fixed bits of each format (R72) -/

theorem fa (op : BitVec 4) (nnn : Nat) : formatFA op nnn &&& 0xF000#16 = op ++ 0#12 := by
  change (op ++ BitVec.ofNat 12 nnn) &&& (0xF#4 ++ 0#12) = op ++ 0#12
  rw [BitVec.and_append, BitVec.and_zero]
  exact congrArg (· ++ 0#12) BitVec.and_allOnes

theorem fxk (op : BitVec 4) (x : RegIdx) (kk : Byte) : formatFXK op x kk &&& 0xF000#16 = op ++ 0#12 := by
  change (op ++ (regBits x ++ kk)) &&& (0xF#4 ++ (0#4 ++ 0#8)) = op ++ (0#4 ++ 0#8)
  rw [BitVec.and_append, BitVec.and_append, BitVec.and_zero, BitVec.and_zero]
  exact congrArg (· ++ (0#4 ++ 0#8)) BitVec.and_allOnes

theorem fxy (op : BitVec 4) (x y : RegIdx) (n : BitVec 4) :
    formatFXY op x y n &&& 0xF00F#16 = op ++ (0#4 ++ (0#4 ++ n)) := by
  change (op ++ (regBits x ++ (regBits y ++ n))) &&& (0xF#4 ++ (0#4 ++ (0#4 ++ 0xF#4))) = op ++ (0#4 ++ (0#4 ++ n))
  rw [BitVec.and_append, BitVec.and_append, BitVec.and_append, BitVec.and_zero, BitVec.and_zero]
  rw [show op &&& 0xF#4 = op from BitVec.and_allOnes, show n &&& 0xF#4 = n from BitVec.and_allOnes]

theorem fxyn (op : BitVec 4) (x y : RegIdx) (n : BitVec 4) : formatFXY op x y n &&& 0xF000#16 = op ++ 0#12 := by
  change (op ++ (regBits x ++ (regBits y ++ n))) &&& (0xF#4 ++ (0#4 ++ (0#4 ++ 0#4))) = op ++ (0#4 ++ (0#4 ++ 0#4))
  rw [BitVec.and_append, BitVec.and_append, BitVec.and_append, BitVec.and_zero, BitVec.and_zero, BitVec.and_zero]
  rw [show op &&& 0xF#4 = op from BitVec.and_allOnes]

theorem fxs (op : BitVec 4) (x : RegIdx) (sel : Byte) : formatFXS op x sel &&& 0xF0FF#16 = op ++ (0#4 ++ sel) := by
  change (op ++ (regBits x ++ sel)) &&& (0xF#4 ++ (0#4 ++ 0xFF#8)) = op ++ (0#4 ++ sel)
  rw [BitVec.and_append, BitVec.and_append, BitVec.and_zero]
  rw [show op &&& 0xF#4 = op from BitVec.and_allOnes, show sel &&& 0xFF#8 = sel from BitVec.and_allOnes]

/-- A row holds a word when the masked word is the row's bits. -/
theorem of_eq {i : Instr} (h : encode i &&& i.opcodeRow.mask = i.opcodeRow.bits) : Statement i := beq_iff_eq.mpr h

/-! ### One lemma for each instruction -/

theorem cls : Statement .cls := rfl
theorem ret : Statement .ret := rfl
theorem jmp (nnn : Nat) : Statement (.jmp nnn) := of_eq (fa _ _)
theorem call (nnn : Nat) : Statement (.call nnn) := of_eq (fa _ _)
theorem seVxKk (x : RegIdx) (kk : Byte) : Statement (.seVxKk x kk) := of_eq (fxk _ _ _)
theorem sneVxKk (x : RegIdx) (kk : Byte) : Statement (.sneVxKk x kk) := of_eq (fxk _ _ _)
theorem seVxVy (x y : RegIdx) : Statement (.seVxVy x y) := of_eq (fxy _ _ _ _)
theorem ldVxKk (x : RegIdx) (kk : Byte) : Statement (.ldVxKk x kk) := of_eq (fxk _ _ _)
theorem addVxKk (x : RegIdx) (kk : Byte) : Statement (.addVxKk x kk) := of_eq (fxk _ _ _)
theorem ldVxVy (x y : RegIdx) : Statement (.ldVxVy x y) := of_eq (fxy _ _ _ _)
theorem or (x y : RegIdx) : Statement (.or x y) := of_eq (fxy _ _ _ _)
theorem and (x y : RegIdx) : Statement (.and x y) := of_eq (fxy _ _ _ _)
theorem xor (x y : RegIdx) : Statement (.xor x y) := of_eq (fxy _ _ _ _)
theorem addVxVy (x y : RegIdx) : Statement (.addVxVy x y) := of_eq (fxy _ _ _ _)
theorem sub (x y : RegIdx) : Statement (.sub x y) := of_eq (fxy _ _ _ _)
theorem shr (x y : RegIdx) : Statement (.shr x y) := of_eq (fxy _ _ _ _)
theorem subn (x y : RegIdx) : Statement (.subn x y) := of_eq (fxy _ _ _ _)
theorem shl (x y : RegIdx) : Statement (.shl x y) := of_eq (fxy _ _ _ _)
theorem sneVxVy (x y : RegIdx) : Statement (.sneVxVy x y) := of_eq (fxy _ _ _ _)
theorem ldINnn (nnn : Nat) : Statement (.ldINnn nnn) := of_eq (fa _ _)
theorem jmpV0 (nnn : Nat) : Statement (.jmpV0 nnn) := of_eq (fa _ _)
theorem rnd (x : RegIdx) (kk : Byte) : Statement (.rnd x kk) := of_eq (fxk _ _ _)
theorem drw (x y : RegIdx) (n : Nat) : Statement (.drw x y n) := of_eq (fxyn _ _ _ _)
theorem skp (x : RegIdx) : Statement (.skp x) := of_eq (fxs _ _ _)
theorem sknp (x : RegIdx) : Statement (.sknp x) := of_eq (fxs _ _ _)
theorem ldVxDt (x : RegIdx) : Statement (.ldVxDt x) := of_eq (fxs _ _ _)
theorem ldVxK (x : RegIdx) : Statement (.ldVxK x) := of_eq (fxs _ _ _)
theorem ldDtVx (x : RegIdx) : Statement (.ldDtVx x) := of_eq (fxs _ _ _)
theorem ldStVx (x : RegIdx) : Statement (.ldStVx x) := of_eq (fxs _ _ _)
theorem addIVx (x : RegIdx) : Statement (.addIVx x) := of_eq (fxs _ _ _)
theorem ldFVx (x : RegIdx) : Statement (.ldFVx x) := of_eq (fxs _ _ _)
theorem ldBVx (x : RegIdx) : Statement (.ldBVx x) := of_eq (fxs _ _ _)
theorem ldMemVx (x : RegIdx) : Statement (.ldMemVx x) := of_eq (fxs _ _ _)
theorem ldVxMem (x : RegIdx) : Statement (.ldVxMem x) := of_eq (fxs _ _ _)

end Sys2Proof.Laws.RowBits
end

