-- ==== Sys2Proof/Laws/Step.lean ====
section
/-! SUPPORT. What a step can do, once: the parts around the instruction, and the four cases of a tick. -/

namespace Sys2Proof.Machine

/-- Taking the inputs writes the model's own fields alone. -/
theorem takeInputs_frame (s : State) :
    takeInputs s = { s with ports := (takeInputs s).ports, inputs := (takeInputs s).inputs, draws := (takeInputs s).draws } := by
  unfold takeInputs
  split <;> rfl

theorem takeInputs_of_cons {s : State} {inp : TickInput} {rest : List TickInput} (h : s.inputs = inp :: rest) :
    takeInputs s = { s with ports := inp, inputs := rest } := by
  simp [takeInputs, h]

/-- The timer phase writes the timers and the accumulator alone. -/
theorem timerPhase_frame (s : State) :
    timerPhase s = { s with dt := (timerPhase s).dt, st := (timerPhase s).st, acc := (timerPhase s).acc } := rfl

theorem countDown_toNat (b : TimerVal) : (countDown b).toNat = b.toNat - 1 := by
  unfold countDown
  split
  · next h => simp [h]
  · next h =>
    have hb : b.toNat < 2 ^ 8 := b.isLt
    have : b.toNat ≠ 0 := fun h0 => h (BitVec.eq_of_toNat_eq (by simpa using h0))
    rw [BitVec.toNat_sub]
    change (2 ^ 8 - 1 + b.toNat) % 2 ^ 8 = _
    omega

theorem takePeriod_val (period acc : Millis) :
    (takePeriod period acc).val = if period.val ≤ acc.val then acc.val - period.val else acc.val := by
  unfold takePeriod
  split <;> rfl

/-- A word lies at `PC`: fetch gives it and advances `PC` (R101). -/
theorem fetch_of_le {s : State} (h : s.pc.toNat + Config.instrBytes ≤ Config.ramSize) :
    fetch s = .word (assembleWord (s.byteAt s.pc.toNat) (s.byteAt (s.pc.toNat + 1)))
      (s.setPc (s.pc + BitVec.ofNat Config.pcWidth Config.instrBytes)) := if_neg (by omega)

/-- No word lies at `PC`: the fetch faults and `PC` stays (R101). -/
theorem fetch_of_gt {s : State} (h : Config.ramSize < s.pc.toNat + Config.instrBytes) :
    fetch s = .faulted (latch (fetchFault s) s) := if_pos h

theorem runWord_instr {w : Word} {i : Instr} (h : decode w = .instr i) (s : State) : runWord w s = exec i s := by
  simp [runWord, h]

theorem runWord_unknown {w u : Word} (h : decode w = .unknown u) (s : State) :
    runWord w s = .next (latch (unknownFault u s) s) := by
  simp [runWord, h]

/-- The cases of a step (R100, R103, R105): a faulted block; a waiting tick; a fetch fault; a fetched word. -/
theorem step_cases (s : State) :
    (s.fault ≠ none ∧ step s = .next s) ∨
    (s.fault = none ∧ ∃ x, s.haltedOnKey = some x ∧ step s = .next (keyWaitStep x (timerPhase (takeInputs s)))) ∨
    (s.fault = none ∧ s.haltedOnKey = none ∧ Config.ramSize < s.pc.toNat + Config.instrBytes ∧
      step s = .next (latch (fetchFault (timerPhase (takeInputs s))) (timerPhase (takeInputs s)))) ∨
    (s.fault = none ∧ s.haltedOnKey = none ∧ s.pc.toNat + Config.instrBytes ≤ Config.ramSize ∧
      step s = runWord (assembleWord (s.byteAt s.pc.toNat) (s.byteAt (s.pc.toNat + 1)))
        ((timerPhase (takeInputs s)).setPc (s.pc + BitVec.ofNat Config.pcWidth Config.instrBytes))) := by
  have hpc : (timerPhase (takeInputs s)).pc = s.pc := by rw [timerPhase_frame, takeInputs_frame]
  have hmem : (timerPhase (takeInputs s)).mem = s.mem := by rw [timerPhase_frame, takeInputs_frame]
  unfold step tick
  cases hf : s.fault with
  | some r => exact .inl ⟨by simp, rfl⟩
  | none =>
    refine .inr ?_
    cases hh : s.haltedOnKey with
    | some x => exact .inl ⟨rfl, x, rfl, rfl⟩
    | none =>
      refine .inr ?_
      by_cases hle : s.pc.toNat + Config.instrBytes ≤ Config.ramSize
      · refine .inr ⟨rfl, rfl, hle, ?_⟩
        simp only [runTick]
        rw [fetch_of_le (by rw [hpc]; exact hle)]
        simp only [hpc, State.byteAt, hmem]
      · refine .inl ⟨rfl, rfl, by omega, ?_⟩
        simp only [runTick]
        rw [fetch_of_gt (by rw [hpc]; omega)]

end Sys2Proof.Machine
end

