-- ==== Sys2Proof/Tests/Slice0.lean ====
section
/-! SUPPORT. The model's own tests. The expected values are those of 95_test_vectors.md (the vector's id stands in the
comment) or of the rule named; no value was taken from the model. After them, for every obligation with hypotheses, a
concrete state and operands that meet them. -/

namespace Sys2Proof.Tests

open Sys2Proof.Machine

/-! ### Ill-formed instructions -/

theorem test_jmp_wide_address_refused : ¬ (Instr.jmp 0x1000).WellFormed := by decide
theorem test_call_wide_address_refused : ¬ (Instr.call 0x1000).WellFormed := by decide
theorem test_ldINnn_wide_address_refused : ¬ (Instr.ldINnn 0x1000).WellFormed := by decide
theorem test_jmpV0_wide_address_refused : ¬ (Instr.jmpV0 0x1000).WellFormed := by decide
theorem test_drw_wide_count_refused : ¬ (Instr.drw 0 1 16).WellFormed := by decide
theorem test_widest_operands_accepted :
    (Instr.jmp 0xFFF).WellFormed ∧ (Instr.call 0xFFF).WellFormed ∧ (Instr.ldINnn 0xFFF).WellFormed ∧
    (Instr.jmpV0 0xFFF).WellFormed ∧ (Instr.drw 0xF 0xF 15).WellFormed := by decide

/-! ### Decoding: the words of section L2.0, written out from the patterns of R74 -/

theorem test_decode_family0 :
    decode 0b0000_0000_1110_0000 = .instr .cls ∧ decode 0b0000_0000_1110_1110 = .instr .ret ∧
    decode 0x0000 = .unknown 0x0000 ∧ decode 0x0123 = .unknown 0x0123 ∧ decode 0x00E1 = .unknown 0x00E1 ∧
    decode 0x00EF = .unknown 0x00EF ∧ decode 0x0FFF = .unknown 0x0FFF := by decide
theorem test_decode_jumps :
    decode 0b0001_0000_0000_0000 = .instr (.jmp 0x000) ∧ decode 0x1FFF = .instr (.jmp 0xFFF) ∧
    decode 0b0010_1010_1011_1100 = .instr (.call 0xABC) ∧ decode 0b1011_0001_0010_0011 = .instr (.jmpV0 0x123) := by
  decide
theorem test_decode_skips :
    decode 0b0011_1010_0101_1011 = .instr (.seVxKk 0xA 0x5B) ∧ decode 0b0100_0000_0000_0000 = .instr (.sneVxKk 0 0x00) ∧
    decode 0b0101_0001_0010_0000 = .instr (.seVxVy 1 2) ∧ decode 0x5121 = .unknown 0x5121 ∧
    decode 0x512F = .unknown 0x512F ∧ decode 0b1001_0001_0010_0000 = .instr (.sneVxVy 1 2) ∧
    decode 0x9121 = .unknown 0x9121 := by decide
theorem test_decode_register_load :
    decode 0b0110_1111_1111_1111 = .instr (.ldVxKk 0xF 0xFF) ∧ decode 0b0111_1110_0000_0001 = .instr (.addVxKk 0xE 0x01) ∧
    decode 0b1100_0001_1111_1111 = .instr (.rnd 1 0xFF) := by decide
theorem test_decode_alu :
    decode 0b1000_1010_1011_0000 = .instr (.ldVxVy 0xA 0xB) ∧ decode 0b1000_1010_1011_0001 = .instr (.or 0xA 0xB) ∧
    decode 0b1000_1010_1011_0010 = .instr (.and 0xA 0xB) ∧ decode 0b1000_1010_1011_0011 = .instr (.xor 0xA 0xB) ∧
    decode 0b1000_1010_1011_0100 = .instr (.addVxVy 0xA 0xB) ∧ decode 0b1000_1010_1011_0101 = .instr (.sub 0xA 0xB) ∧
    decode 0b1000_1010_1011_0110 = .instr (.shr 0xA 0xB) ∧ decode 0b1000_1010_1011_0111 = .instr (.subn 0xA 0xB) ∧
    decode 0b1000_1010_1011_1110 = .instr (.shl 0xA 0xB) := by decide
theorem test_decode_alu_unknown :
    ∀ n ∈ [0x8, 0x9, 0xA, 0xB, 0xC, 0xD, 0xF],
      decode (BitVec.ofNat 16 (0x8AB0 + n)) = .unknown (BitVec.ofNat 16 (0x8AB0 + n)) := by decide
theorem test_decode_index_memory :
    decode 0b1010_0001_0010_0011 = .instr (.ldINnn 0x123) ∧ decode 0b1111_0001_0001_1110 = .instr (.addIVx 1) ∧
    decode 0b1111_0001_0010_1001 = .instr (.ldFVx 1) ∧ decode 0b1111_0001_0011_0011 = .instr (.ldBVx 1) ∧
    decode 0b1111_0001_0101_0101 = .instr (.ldMemVx 1) ∧ decode 0b1111_0001_0110_0101 = .instr (.ldVxMem 1) := by decide
theorem test_decode_display_and_keys :
    decode 0b1101_0001_0010_0000 = .instr (.drw 1 2 0) ∧ decode 0xD12F = .instr (.drw 1 2 15) ∧
    decode 0b1110_0001_1001_1110 = .instr (.skp 1) ∧ decode 0b1110_0001_1010_0001 = .instr (.sknp 1) ∧
    decode 0b1111_0001_0000_1010 = .instr (.ldVxK 1) := by decide
theorem test_decode_timers :
    decode 0b1111_0001_0000_0111 = .instr (.ldVxDt 1) ∧ decode 0b1111_0001_0001_0101 = .instr (.ldDtVx 1) ∧
    decode 0b1111_0001_0001_1000 = .instr (.ldStVx 1) := by decide
theorem test_decode_unknown_low_bytes :
    ∀ w ∈ [0xE19F, 0xE1A0, 0xE100, 0xF100, 0xF108, 0xF130, 0xF175, 0xF1FF],
      decode (BitVec.ofNat 16 w) = .unknown (BitVec.ofNat 16 w) := by decide
/-- R52: the byte at the lower address is the high byte. -/
theorem test_decode_bytes_big_endian :
    decodeBytes [0x8A, 0xB4, 0x12] = .ok (.addVxVy 0xA 0xB, [0x12]) ∧ decodeBytes [0x8A] = .error .truncated ∧
    decodeTableWord 16 0x8AB4 = some (.addVxVy 0xA 0xB) ∧ decodeTableWord 16 0x8AB8 = none :=
  ⟨rfl, rfl, rfl, rfl⟩

/-- The assembly column of programs P1, P2 and P6 (section L3). -/
theorem test_assembly :
    (Instr.ldVxKk 0 0x05).assembly = "LD V0, 0x05" ∧ (Instr.addVxVy 1 0).assembly = "ADD V1, V0" ∧
    (Instr.jmp 0x204).assembly = "JMP 0x204" ∧ (Instr.ldMemVx 1).assembly = "LD [I], V1" ∧
    (Instr.ldVxK 3).assembly = "LD V3, K" ∧ (Instr.addVxKk 0 0xFF).assembly = "ADD V0, 0xFF" := by decide +kernel

/-! ### One step of a small state -/

/-- No time has passed and no key is down; the random port answers 0xA7 (L2.2). -/
def quiet : TickInput := ⟨⟨0, le_refl 0⟩, 0xA7, [], none⟩

/-- A tick in which one frame period passes. -/
def framePasses : TickInput := { quiet with elapsed := ⟨1000 / 60, by norm_num⟩ }

/-- The reset state with `w` stored at `a`, `PC` at `a`, and a quiet tick to come. -/
def launch (a : Nat) (w : Word) : State :=
  { State.reset with
    pc := BitVec.ofNat Config.pcWidth a
    mem := Memory.writeBytes [] a [highByte w, lowByte w]
    inputs := [quiet] }

/-- The next step answers a state that passes. -/
def stepGives (s : State) (p : State → Bool) : Bool :=
  match step s with
  | .next t => p t
  | _ => false

/-- The latched record is of kind `k`, at `pc`, with `target`. -/
def faultIs (t : State) (k : Fault) (pc : PcVal) (target : Option Nat) : Bool :=
  match t.fault with
  | some r => r.kind == k && r.pc == pc && r.target == target
  | none => false

/-! #### Control flow -/

/-- V-CF-1. -/
theorem test_ret_pops : stepGives { launch 0x200 0x00EE with sp := 1, stack := State.reset.stack.set 0 0x300 }
    (fun t => t.pc == 0x300 && t.sp == 0 && t.fault == none) = true := by decide
/-- V-CF-2. -/
theorem test_ret_underflow : stepGives (launch 0x200 0x00EE)
    (fun t => t.pc == 0x202 && faultIs t .stackUnderflow 0x200 none) = true := by decide
/-- V-CF-6. -/
theorem test_jmp_odd_target : stepGives (launch 0x200 0x1201) (fun t => t.pc == 0x201) = true := by decide
/-- V-CF-10. -/
theorem test_call_pushes_ram_size : stepGives (launch 0xFFE 0x2FFF)
    (fun t => t.pc == 0xFFF && t.sp == 1 && t.stack[0] == 0x1000) = true := by decide
/-- V-CF-8. -/
theorem test_call_overflow : stepGives { launch 0x200 0x2400 with sp := 16 }
    (fun t => t.pc == 0x202 && t.sp == 16 && faultIs t .stackOverflow 0x200 none) = true := by decide
/-- V-CF-11. -/
theorem test_seVxKk_skips : stepGives ((launch 0x200 0x3310).setReg 3 0x10) (fun t => t.pc == 0x204) = true := by decide
/-- V-CF-24. -/
theorem test_seVxKk_faults_at_top : stepGives (launch 0xFFC 0x3000)
    (fun t => t.pc == 0xFFE && faultIs t .addressFault 0xFFC (some 0x1000)) = true := by decide
/-- V-CF-14. -/
theorem test_sneVxKk_falls_through : stepGives ((launch 0x200 0x4310).setReg 3 0x10)
    (fun t => t.pc == 0x202) = true := by decide
/-- V-CF-15. -/
theorem test_seVxVy_skips : stepGives (((launch 0x200 0x5120).setReg 1 0x07).setReg 2 0x07)
    (fun t => t.pc == 0x204) = true := by decide
/-- V-CF-18. -/
theorem test_sneVxVy_skips : stepGives (((launch 0x200 0x9120).setReg 1 0x07).setReg 2 0x08)
    (fun t => t.pc == 0x204) = true := by decide
/-- V-CF-22. -/
theorem test_jmpV0_highest_target : stepGives ((launch 0x200 0xBF01).setReg 0 0xFE)
    (fun t => t.pc == 0xFFF) = true := by decide
/-- V-CF-23. -/
theorem test_jmpV0_faults : stepGives ((launch 0x200 0xBF01).setReg 0 0xFF)
    (fun t => t.pc == 0x202 && faultIs t .addressFault 0x200 (some 0x1000)) = true := by decide

/-! #### Register loads and the ALU -/

/-- V-LD-1. -/
theorem test_ldVxKk : stepGives (launch 0x200 0x6A3C) (fun t => t.reg 0xA == 0x3C && t.pc == 0x202) = true := by decide
/-- V-LD-3. -/
theorem test_addVxKk_sets_no_flag : stepGives (((launch 0x200 0x7220).setReg 2 0xF0).setReg 0xF 0x55)
    (fun t => t.reg 2 == 0x10 && t.reg 0xF == 0x55) = true := by decide
/-- V-LD-6. -/
theorem test_rnd_masks : stepGives (launch 0x200 0xC30F) (fun t => t.reg 3 == 0x07) = true := by decide
/-- V-AL-1. -/
theorem test_ldVxVy : stepGives ((launch 0x200 0x8150).setReg 5 0x42)
    (fun t => t.reg 1 == 0x42 && t.reg 5 == 0x42) = true := by decide
/-- V-AL-2. -/
theorem test_or_keeps_vf : stepGives ((((launch 0x200 0x8121).setReg 1 0xF0).setReg 2 0x0F).setReg 0xF 0x55)
    (fun t => t.reg 1 == 0xFF && t.reg 0xF == 0x55) = true := by decide
/-- V-AL-3. -/
theorem test_and : stepGives (((launch 0x200 0x8122).setReg 1 0xF0).setReg 2 0x3C)
    (fun t => t.reg 1 == 0x30) = true := by decide
/-- V-AL-4. -/
theorem test_xor : stepGives (((launch 0x200 0x8123).setReg 1 0xF0).setReg 2 0x3C)
    (fun t => t.reg 1 == 0xCC) = true := by decide
/-- V-AL-6. -/
theorem test_add_carries : stepGives (((launch 0x200 0x8124).setReg 1 0x01).setReg 2 0xFF)
    (fun t => t.reg 1 == 0x00 && t.reg 0xF == 0x01) = true := by decide
/-- V-AL-9. -/
theorem test_add_flag_overwrites_vf : stepGives (((launch 0x200 0x8F24).setReg 0xF 0x80).setReg 2 0x80)
    (fun t => t.reg 0xF == 0x01) = true := by decide
/-- V-AL-12. -/
theorem test_sub_borrows : stepGives ((((launch 0x200 0x8125).setReg 1 0x05).setReg 2 0x07).setReg 0xF 0x01)
    (fun t => t.reg 1 == 0xFE && t.reg 0xF == 0x00) = true := by decide
/-- V-AL-13. -/
theorem test_sub_equal_no_borrow : stepGives (((launch 0x200 0x8125).setReg 1 0x07).setReg 2 0x07)
    (fun t => t.reg 1 == 0x00 && t.reg 0xF == 0x01) = true := by decide
/-- V-AL-18. -/
theorem test_shr_ignores_vy : stepGives ((launch 0x200 0x8476).setReg 4 0xFF)
    (fun t => t.reg 4 == 0x7F && t.reg 0xF == 0x01) = true := by decide
/-- V-AL-20. -/
theorem test_shr_flag_overwrites_vf : stepGives ((launch 0x200 0x8F06).setReg 0xF 0x02)
    (fun t => t.reg 0xF == 0x00) = true := by decide
/-- V-AL-22. -/
theorem test_subn_borrows : stepGives (((launch 0x200 0x8127).setReg 1 0x01).setReg 0xF 0x01)
    (fun t => t.reg 1 == 0xFF && t.reg 0xF == 0x00) = true := by decide
/-- V-AL-24. -/
theorem test_shl_carries_out : stepGives ((launch 0x200 0x840E).setReg 4 0x81)
    (fun t => t.reg 4 == 0x02 && t.reg 0xF == 0x01) = true := by decide
/-- R161 and 93_implementation_defined.md G4: with `SHIFT_SOURCE = VY` the operand is `V7`, the destination `V4`. -/
theorem test_shl_legacy_source : stepGives
    { (launch 0x200 0x847E).setReg 7 0x81 with params := { defaultParams with shiftSource := .vy } }
    (fun t => t.reg 4 == 0x02 && t.reg 7 == 0x81 && t.reg 0xF == 0x01) = true := by decide

/-! #### The address register and memory -/

/-- V-IM-1. -/
theorem test_ldINnn : stepGives (launch 0x200 0xA300) (fun t => t.i == 0x300) = true := by decide
/-- V-IM-3. -/
theorem test_addIVx_highest : stepGives ((launch 0x200 0xF21E).setI 0xFFF)
    (fun t => t.i == 0xFFF && t.fault == none) = true := by decide
/-- V-IM-4. -/
theorem test_addIVx_faults : stepGives (((launch 0x200 0xF21E).setI 0xF01).setReg 2 0xFF)
    (fun t => t.i == 0xF01 && faultIs t .addressFault 0x200 (some 0x1000)) = true := by decide
/-- V-IM-6. -/
theorem test_ldFVx_past_font : stepGives ((launch 0x200 0xF729).setReg 7 0xFF) (fun t => t.i == 0x4FB) = true := by decide
/-- V-IM-7. -/
theorem test_ldBVx_digits : stepGives (((launch 0x200 0xF333).setI 0x300).setReg 3 0x7B)
    (fun t => t.byteAt 0x300 == 1 && t.byteAt 0x301 == 2 && t.byteAt 0x302 == 3 && t.i == 0x300) = true := by decide
/-- V-IM-11. -/
theorem test_ldBVx_faults : stepGives (((launch 0x200 0xF333).setI 0xFFE).setReg 3 0xFF)
    (fun t => t.byteAt 0xFFE == 0 && faultIs t .addressFault 0x200 (some 0x1000)) = true := by decide
/-- V-IM-12. -/
theorem test_ldMemVx_stores : stepGives ((((launch 0x200 0xF155).setI 0x400).setReg 0 0x11).setReg 1 0x22)
    (fun t => t.byteAt 0x400 == 0x11 && t.byteAt 0x401 == 0x22 && t.i == 0x400) = true := by decide
/-- V-IM-14. -/
theorem test_ldMemVx_faults : stepGives ((((launch 0x200 0xF155).setI 0xFFF).setReg 0 0x11).setReg 1 0x22)
    (fun t => t.byteAt 0xFFF == 0 && faultIs t .addressFault 0x200 (some 0x1000)) = true := by decide
/-- V-IM-15. -/
theorem test_ldVxMem_loads : stepGives (((launch 0x200 0xF165).setI 0x400).storeBytes 0x400 [0x11, 0x22, 0x33])
    (fun t => t.reg 0 == 0x11 && t.reg 1 == 0x22 && t.reg 2 == 0 && t.i == 0x400) = true := by decide
/-- V-IM-17. -/
theorem test_ldVxMem_faults : stepGives ((launch 0x200 0xFF65).setI 0xFF1)
    (fun t => faultIs t .addressFault 0x200 (some 0x1000)) = true := by decide

/-! #### Display -/

/-- V-DS-1. -/
theorem test_cls_clears : stepGives { launch 0x200 0x00E0 with screen := State.reset.screen.set 3 (Vector.replicate 64 true) }
    (fun t => t.screen.pixel (5, 3) == false && t.pc == 0x202) = true := by decide
/-- V-DS-9: the column wraps. -/
theorem test_drw_column_wraps : stepGives ((((launch 0x200 0xD011).setI 0x300).storeBytes 0x300 [0xFF]).setReg 0 0x3C)
    (fun t => t.screen.pixel (63, 0) && t.screen.pixel (3, 0) && !t.screen.pixel (4, 0) && t.reg 0xF == 0) = true := by decide
/-- V-DS-6. -/
theorem test_drw_faults : stepGives (((launch 0x200 0xD012).setI 0xFFF).setReg 0xF 0x01)
    (fun t => t.reg 0xF == 0x01 && faultIs t .addressFault 0x200 (some 0x1001)) = true := by decide
/-- R213: bit 7 is the leftmost column by default, bit 0 in the other order. -/
theorem test_sprite_bit_orders :
    spriteBit .msbLeft 0x80 0 = true ∧ spriteBit .msbLeft 0x01 7 = true ∧
    spriteBit .lsbLeft 0x80 7 = true ∧ spriteBit .lsbLeft 0x80 0 = false := by decide

/-! #### Timers -/

/-- V-TM-2: the timer phase runs before the instruction. -/
theorem test_ldVxDt_after_frame : stepGives { launch 0x200 0xF307 with dt := 0x3C, inputs := [framePasses] }
    (fun t => t.reg 3 == 0x3B && t.dt == 0x3B) = true := by decide +kernel
/-- V-TM-7. -/
theorem test_ldDtVx_after_frame : stepGives { launch 0x200 0xF015 with dt := 0x05, inputs := [framePasses] }
    (fun t => t.dt == 0x00) = true := by decide +kernel
/-- V-TM-4. -/
theorem test_ldStVx : stepGives ((launch 0x200 0xF318).setReg 3 0x05) (fun t => t.st == 0x05) = true := by decide
/-- L2.6, wall-clock row 3: 10/3 ms kept, 40 ms more, one frame tick only. -/
theorem test_one_frame_a_tick : stepGives
    { launch 0x200 0x1200 with
      dt := 2, acc := ⟨10 / 3, by norm_num⟩, inputs := [{ quiet with elapsed := ⟨40, by norm_num⟩ }] }
    (fun t => t.dt == 1 && t.acc.val == 80 / 3) = true := by decide +kernel

/-! #### Keys -/

/-- V-IN-1. -/
theorem test_skp_skips : stepGives { (launch 0x200 0xE19E).setReg 1 0x05 with inputs := [{ quiet with keysDown := [5] }] }
    (fun t => t.pc == 0x204) = true := by decide
/-- V-IN-5. -/
theorem test_skp_key_index_fault : stepGives
    { (launch 0x200 0xE19E).setReg 1 0x10 with inputs := [{ quiet with keysDown := [0] }] }
    (fun t => t.pc == 0x202 && faultIs t .keyIndexFault 0x200 none && t.fault.map FaultRecord.key == some (some 0x10)) = true := by
  decide
/-- V-IN-3. -/
theorem test_sknp_skips : stepGives ((launch 0x200 0xE1A1).setReg 1 0x05) (fun t => t.pc == 0x204) = true := by decide
/-- V-IN-9. -/
theorem test_ldVxK_waits : stepGives { launch 0x200 0xF40A with inputs := [{ quiet with polledKey := some 7 }] }
    (fun t => t.haltedOnKey == some 4 && t.pc == 0x202 && t.reg 4 == 0) = true := by decide
/-- V-IN-11. -/
theorem test_key_ends_wait : stepGives
    { launch 0x200 0x6077 with haltedOnKey := some 4, inputs := [{ quiet with polledKey := some 0xB }] }
    (fun t => t.reg 4 == 0x0B && t.haltedOnKey == none && t.pc == 0x200 && t.reg 0 == 0) = true := by decide

/-! #### The cycle and reset -/

/-- V-CY-8: the timer phase of the faulting tick has run. -/
theorem test_unknown_word_faults : stepGives { launch 0x200 0x0000 with dt := 0x05, inputs := [framePasses] }
    (fun t => t.dt == 0x04 && t.pc == 0x202 && faultIs t .unknownOpcode 0x200 none &&
      t.fault.map FaultRecord.word == some (some 0x0000)) = true := by decide +kernel
/-- V-CY-5. -/
theorem test_fetch_fault : stepGives { launch 0x200 0x6001 with pc := 0xFFF }
    (fun t => t.pc == 0xFFF && faultIs t .addressFault 0xFFF (some 0x1001) &&
      t.fault.map FaultRecord.word == some none) = true := by decide
/-- V-CY-3. -/
theorem test_fetch_at_top : stepGives (launch 0xFFE 0x6001) (fun t => t.reg 0 == 0x01 && t.pc == 0x1000) = true := by decide
/-- L1.1: the font begins `F0 90 90 90 F0 20 60 20 20 70`, and the byte after it is 0. -/
theorem test_reset_font :
    ((List.range 10).map State.reset.byteAt = [0xF0, 0x90, 0x90, 0x90, 0xF0, 0x20, 0x60, 0x20, 0x20, 0x70]) ∧
    State.reset.byteAt 0x4F = 0x80 ∧ State.reset.byteAt 0x50 = 0 := by decide
/-- G1: 16 glyphs of 5 bytes (R6). -/
theorem test_font_size : fontTable.length = Config.fontGlyphs * Config.fontGlyphBytes := by decide
/-- R5, R57: `reset()` installs the configured font, here one with another first byte. -/
theorem test_reset_installs_configured_font :
    let s := { State.reset with params := { defaultParams with font := defaultParams.font.set 0 0xAA } }
    (resetBlock s).byteAt 0x00 = 0xAA ∧ (resetBlock s).byteAt 0x01 = 0x90 ∧ (resetBlock s).byteAt 0x50 = 0 := by
  decide +kernel
/-- V-CF-5, with the word placed as the host places it. -/
theorem test_withFetchWord_runs : stepGives (State.reset.withFetchWord 16 0x1ABC)
    (fun t => t.pc == 0xABC) = true := by decide

/-! ### Witnesses: each obligation's hypotheses are met, each clause's at a boundary -/

theorem witness_JmpSetsPc : ∃ nnn, nnn < 0x1000 ∧ 0x1000 ≤ nnn + 1 := ⟨0xFFF, by decide⟩

theorem witness_CallPushesReturnAddress :
    (∃ nnn, nnn < 0x1000 ∧ 0x1000 ≤ nnn + 1) ∧
    (∃ (s : State) (k : Fin Config.stackDepth), s.sp.val = k.val ∧ k.val = 15) ∧
    (∃ (s : State) (k : Fin Config.stackDepth), s.sp.val = k.val ∧ k.val = 0) ∧
    ∃ s : State, s.sp.val = Config.stackDepth :=
  ⟨⟨0xFFF, by decide⟩, ⟨{ State.reset with sp := 15 }, 15, rfl, rfl⟩, ⟨State.reset, 0, rfl, rfl⟩,
    ⟨{ State.reset with sp := 16 }, rfl⟩⟩

theorem witness_RetPopsReturnAddress :
    (∃ (s : State) (k : Fin Config.stackDepth), s.sp.val = k.val + 1 ∧ k.val = 0) ∧
    (∃ (s : State) (k : Fin Config.stackDepth), s.sp.val = k.val + 1 ∧ k.val = 15) ∧ ∃ s : State, s.sp.val = 0 :=
  ⟨⟨{ State.reset with sp := 1 }, 0, rfl, rfl⟩, ⟨{ State.reset with sp := 16 }, 15, rfl, rfl⟩, ⟨State.reset, rfl⟩⟩

theorem witness_RetUndoesCall :
    ∃ (s t u : State) (nnn : Nat), s.sp.val < Config.stackDepth ∧ exec (.call nnn) s = .next t ∧ nnn < 0x1000 ∧
      exec .ret t = .next u :=
  ⟨{ State.reset with sp := 15 }, _, _, 0xFFF, by decide, rfl, by decide, rfl⟩

/-- `SkipsIf`: the condition false; true at the highest place that skips; true at the lowest place that faults. -/
theorem witness_ImmediateSkips :
    (∃ s : State, ¬ s.reg 0 = 0x01) ∧
    (∃ s : State, s.reg 0 = 0x00 ∧ s.pc.toNat + 2 < Config.ramSize ∧ s.pc.toNat + 2 = 0xFFF) ∧
    (∃ s : State, s.reg 0 = 0x00 ∧ Config.ramSize ≤ s.pc.toNat + 2 ∧ s.pc.toNat + 2 = 0x1000) :=
  ⟨⟨State.reset, by decide⟩, ⟨{ State.reset with pc := 0xFFD }, by decide⟩, ⟨{ State.reset with pc := 0xFFE }, by decide⟩⟩

theorem witness_RegisterSkips :
    (∃ n, 0 < n ∧ n < 16 ∧ n = 1) ∧ (∃ n, 0 < n ∧ n < 16 ∧ n = 15) ∧
    (∃ s : State, ¬ s.reg 0 = s.reg 1 ∧ s.pc.toNat + 2 < Config.ramSize) ∧
    (∃ s : State, s.reg 0 = s.reg 1 ∧ s.pc.toNat + 2 < Config.ramSize ∧ s.pc.toNat + 2 = 0xFFF) ∧
    (∃ s : State, ¬ s.reg 0 = s.reg 1 ∧ Config.ramSize ≤ s.pc.toNat + 2) ∧
    (∃ s : State, s.reg 0 = s.reg 1 ∧ Config.ramSize ≤ s.pc.toNat + 2 ∧ s.pc.toNat + 2 = 0x1000) :=
  ⟨⟨1, by decide⟩, ⟨15, by decide⟩, ⟨State.reset.setReg 1 1, by decide⟩, ⟨{ State.reset with pc := 0xFFD }, by decide⟩,
    ⟨{ State.reset with pc := 0xFFE, v := State.reset.v.set 1 1 }, by decide⟩,
    ⟨{ State.reset with pc := 0xFFE }, by decide⟩⟩

theorem witness_JmpV0AddsV0 :
    (∃ (nnn : Nat) (s : State), nnn < 0x1000 ∧ nnn + (s.reg 0).toNat < Config.ramSize ∧ nnn + (s.reg 0).toNat = 0xFFF) ∧
    (∃ (nnn : Nat) (s : State), nnn < 0x1000 ∧ Config.ramSize ≤ nnn + (s.reg 0).toNat ∧ nnn + (s.reg 0).toNat = 0x1000) :=
  ⟨⟨0xF01, State.reset.setReg 0 0xFE, by decide⟩, ⟨0xF01, State.reset.setReg 0 0xFF, by decide⟩⟩

/-- `WritesRegAndFlag` of ADD: the largest sum without a carry, the smallest with one. -/
theorem witness_AddWritesCarry :
    (∃ s : State, ¬ 255 < (s.reg 0).toNat + (s.reg 1).toNat ∧ (s.reg 0).toNat + (s.reg 1).toNat = 255) ∧
    (∃ s : State, 255 < (s.reg 0).toNat + (s.reg 1).toNat ∧ (s.reg 0).toNat + (s.reg 1).toNat = 256) :=
  ⟨⟨(State.reset.setReg 0 0x80).setReg 1 0x7F, by decide⟩, ⟨(State.reset.setReg 0 0x80).setReg 1 0x80, by decide⟩⟩

/-- `WritesRegAndFlag` of SUB and SUBN: equal operands, and a borrow each way. -/
theorem witness_SubAndSubnWriteNoBorrow :
    (∃ s : State, (s.reg 1).toNat ≤ (s.reg 0).toNat ∧ (s.reg 0).toNat ≤ (s.reg 1).toNat) ∧
    (∃ s : State, ¬ (s.reg 1).toNat ≤ (s.reg 0).toNat) ∧ (∃ s : State, ¬ (s.reg 0).toNat ≤ (s.reg 1).toNat) :=
  ⟨⟨State.reset, by decide⟩, ⟨State.reset.setReg 1 1, by decide⟩, ⟨State.reset.setReg 0 1, by decide⟩⟩

/-- Each shift source, with the bits moved out each way. -/
theorem witness_ShiftsWriteShiftedOutBit :
    (∃ s : State, s.params.shiftSource = .vx ∧ (s.reg 0).toNat % 2 = 1 ∧ ¬ 128 ≤ (s.reg 0).toNat ∧ (s.reg 0).toNat = 127) ∧
    (∃ s : State, s.params.shiftSource = .vx ∧ ¬ (s.reg 0).toNat % 2 = 1 ∧ 128 ≤ (s.reg 0).toNat ∧ (s.reg 0).toNat = 128) ∧
    (∃ s : State, s.params.shiftSource = .vy ∧ (s.reg 1).toNat % 2 = 1 ∧ ¬ 128 ≤ (s.reg 1).toNat ∧ (s.reg 1).toNat = 127) ∧
    (∃ s : State, s.params.shiftSource = .vy ∧ ¬ (s.reg 1).toNat % 2 = 1 ∧ 128 ≤ (s.reg 1).toNat ∧ (s.reg 1).toNat = 128) :=
  ⟨⟨State.reset.setReg 0 0x7F, by decide⟩, ⟨State.reset.setReg 0 0x80, by decide⟩,
    ⟨{ State.reset.setReg 1 0x7F with params := { defaultParams with shiftSource := .vy } }, by decide⟩,
    ⟨{ State.reset.setReg 1 0x80 with params := { defaultParams with shiftSource := .vy } }, by decide⟩⟩

theorem witness_LdILoadsAddress : ∃ nnn, nnn < 0x1000 ∧ 0x1000 ≤ nnn + 1 := ⟨0xFFF, by decide⟩

theorem witness_AddToIChecksRange :
    (∃ s : State, s.i.toNat + (s.reg 2).toNat < Config.ramSize ∧ s.i.toNat + (s.reg 2).toNat = 0xFFF) ∧
    (∃ s : State, Config.ramSize ≤ s.i.toNat + (s.reg 2).toNat ∧ s.i.toNat + (s.reg 2).toNat = 0x1000) :=
  ⟨⟨(State.reset.setI 0xF01).setReg 2 0xFE, by decide⟩, ⟨(State.reset.setI 0xF01).setReg 2 0xFF, by decide⟩⟩

theorem witness_BcdStoresThreeDigits :
    (∃ s : State, s.i.toNat + 2 < Config.ramSize ∧ s.i.toNat = 0xFFD) ∧
    (∃ s : State, Config.ramSize ≤ s.i.toNat + 2 ∧ s.i.toNat = 0xFFE) :=
  ⟨⟨State.reset.setI 0xFFD, by decide⟩, ⟨State.reset.setI 0xFFE, by decide⟩⟩

theorem witness_StoreRegistersAtI :
    (∃ (x : RegIdx) (s : State), s.i.toNat + x.val < Config.ramSize ∧ s.i.toNat + x.val = 0xFFF) ∧
    (∃ (x : RegIdx) (s : State), Config.ramSize ≤ s.i.toNat + x.val ∧ s.i.toNat + x.val = 0x1000) :=
  ⟨⟨0xF, State.reset.setI 0xFF0, by decide⟩, ⟨0xF, State.reset.setI 0xFF1, by decide⟩⟩

theorem witness_LoadRegistersFromI :
    (∃ (x : RegIdx) (s : State), s.i.toNat + x.val < Config.ramSize ∧ s.i.toNat + x.val = 0xFFF) ∧
    (∃ (x : RegIdx) (s : State), Config.ramSize ≤ s.i.toNat + x.val ∧ s.i.toNat + x.val = 0x1000) :=
  witness_StoreRegistersAtI

/-- Between the store and the load the registers up to `x` are overwritten (here `V0`). -/
theorem witness_StoreThenLoadRestoresRegisters :
    ∃ (x : RegIdx) (s t u w : State), s.i.toNat + x.val < Config.ramSize ∧ exec (.ldMemVx x) s = .next t ∧
      RegsUnchanged ((List.finRange Config.numRegs).filter (· ≤ x)) t u ∧ Unchanged [.regs, .pc] t u ∧
      exec (.ldVxMem x) u = .next w := by
  let s := (State.reset.setI 0xFFF).setReg 0 0x12
  let t := s.storeBytes 0xFFF [0x12]
  refine ⟨0, s, t, t.setReg 0 0, (t.setReg 0 0).setReg 0 0x12, by decide, rfl, ?_, ?_, rfl⟩
  · intro x hx
    have h0 : x ≠ 0 := fun h => hx (by subst h; decide)
    revert h0
    revert x
    decide
  · intro p hp
    cases p <;>
      first | exact absurd (by decide) hp | exact rfl | exact ⟨rfl, rfl⟩ | exact ⟨rfl, rfl, rfl⟩ | exact fun _ => rfl

/-- The last word of memory. `Fx33` covers it whole, from below in one byte, or misses it; `Fx55` with `x = 0` covers its low
byte alone, or misses it, and with `x = 15` ends on its last byte. -/
theorem witness_FetchSeesStoredBytes :
    (∃ s : State, s.pc.toNat + 2 ≤ Config.ramSize ∧ s.i.toNat + 2 < Config.ramSize ∧
      effectiveAddress s 1 = s.pc.toNat + 0 ∧ effectiveAddress s 2 = s.pc.toNat + 1 ∧ s.pc.toNat + 1 = 0xFFF) ∧
    (∃ s : State, s.pc.toNat + 2 ≤ Config.ramSize ∧ s.i.toNat + 2 < Config.ramSize ∧
      effectiveAddress s 2 = s.pc.toNat + 0 ∧ ∀ j, j < storedCount (.ldBVx 0) → effectiveAddress s j ≠ s.pc.toNat + 1) ∧
    (∃ (x : RegIdx) (s : State), s.pc.toNat + 2 ≤ Config.ramSize ∧ s.i.toNat + x.val < Config.ramSize ∧ x = 0 ∧
      effectiveAddress s 0 = s.pc.toNat + 1 ∧ s.pc.toNat + 1 = 0xFFF ∧
      ∀ j, j < storedCount (.ldMemVx x) → effectiveAddress s j ≠ s.pc.toNat + 0) ∧
    (∃ (x : RegIdx) (s : State), s.pc.toNat + 2 ≤ Config.ramSize ∧ s.i.toNat + x.val < Config.ramSize ∧ x = 0xF ∧
      effectiveAddress s 15 = s.pc.toNat + 1 ∧ s.pc.toNat + 1 = 0xFFF) :=
  ⟨⟨{ State.reset with pc := 0xFFE, i := 0xFFD }, by decide⟩, ⟨{ State.reset with pc := 0xFFE, i := 0xFFC }, by decide⟩,
    ⟨0, { State.reset with pc := 0xFFE, i := 0xFFF }, by decide⟩, ⟨0xF, { State.reset with pc := 0xFFE, i := 0xFF0 }, by decide⟩⟩

theorem witness_KeySkips :
    (∃ (x : RegIdx) (s : State), Config.keyCount ≤ (s.reg x).toNat ∧ (s.reg x).toNat = 16) ∧
    (∃ (x : RegIdx) (s : State) (k : KeyCode), (s.reg x).toNat = k.val ∧ k ∈ s.ports.keysDown ∧ k.val = 15 ∧
      s.pc.toNat + 2 < Config.ramSize) ∧
    (∃ (x : RegIdx) (s : State) (k : KeyCode), (s.reg x).toNat = k.val ∧ k ∉ s.ports.keysDown ∧
      s.pc.toNat + 2 < Config.ramSize) ∧
    (∃ (x : RegIdx) (s : State) (k : KeyCode), (s.reg x).toNat = k.val ∧ k ∈ s.ports.keysDown ∧
      Config.ramSize ≤ s.pc.toNat + 2) ∧
    (∃ (x : RegIdx) (s : State) (k : KeyCode), (s.reg x).toNat = k.val ∧ k ∉ s.ports.keysDown ∧
      Config.ramSize ≤ s.pc.toNat + 2) :=
  ⟨⟨1, State.reset.setReg 1 16, by decide⟩,
    ⟨1, { State.reset.setReg 1 15 with ports := { quiet with keysDown := [15] } }, 15, by decide⟩,
    ⟨1, State.reset, 0, by decide⟩,
    ⟨1, { State.reset with pc := 0xFFE, ports := { quiet with keysDown := [0] } }, 0, by decide⟩,
    ⟨1, { State.reset with pc := 0xFFE }, 0, by decide⟩⟩

theorem witness_WaitingTickPollsOnce :
    (∃ (s : State) (x : RegIdx) (k : KeyCode), s.fault = none ∧ s.haltedOnKey = some x ∧
      (afterTimers s).ports.polledKey = some k) ∧
    (∃ (s : State) (x : RegIdx), s.fault = none ∧ s.haltedOnKey = some x ∧ (afterTimers s).ports.polledKey = none) :=
  ⟨⟨{ State.reset with haltedOnKey := some 4, inputs := [{ quiet with polledKey := some 0xB }] }, 4, 0xB, rfl, rfl, rfl⟩,
    ⟨{ State.reset with haltedOnKey := some 4, inputs := [quiet] }, 4, rfl, rfl, rfl⟩⟩

/-- The top row of the glyph of digit 0 covers (0, 0) and not (4, 0); on a blank screen nothing collides. -/
theorem witness_DrwXorsSprite :
    (∃ s : State, s.i.toNat + 1 ≤ Config.ramSize ∧ s.i.toNat + 1 = 0x1000) ∧
    (∃ s : State, Config.ramSize < s.i.toNat + 2 ∧ s.i.toNat + 2 = 0x1001) ∧
    (∃ p, spriteCovers State.reset 0 1 1 p ∧ State.reset.screen.pixel p = false) ∧
    (∃ p, ¬ spriteCovers State.reset 0 1 0 p) ∧
    (∃ s p, spriteCovers s 0 1 1 p ∧ s.screen.pixel p = true) :=
  ⟨⟨State.reset.setI 0xFFF, by decide⟩, ⟨State.reset.setI 0xFFF, by decide⟩,
    ⟨(0, 0), ⟨0, by decide, 0, by decide, by decide, by decide, by decide⟩, by decide⟩,
    ⟨(0, 0), fun ⟨_, h, _⟩ => absurd h (by omega)⟩,
    ⟨{ State.reset with screen := State.reset.screen.set 0 (Vector.replicate 64 true) }, (0, 0),
      ⟨0, by decide, 0, by decide, by decide, by decide, by decide⟩, by decide⟩⟩

theorem witness_DrawingTwiceErases :
    ∃ (x y : RegIdx) (n : Nat) (s t u : State), n < 16 ∧ x ≠ 0xF ∧ y ≠ 0xF ∧ s.i.toNat + n ≤ Config.ramSize ∧
      exec (.drw x y n) s = .next t ∧ exec (.drw x y n) t = .next u :=
  ⟨0, 1, 5, State.reset, _, _, by decide, by decide, by decide, by decide, rfl, rfl⟩

/-- A Running state that fetches the last word of memory. -/
theorem witness_StepRunsDecodedInstruction :
    ∃ (s : State) (i : Instr), Running s ∧ Fetchable s ∧ decode (wordAtPc s) = .instr i ∧ s.pc.toNat + 2 = Config.ramSize :=
  ⟨launch 0xFFE 0x6001, .ldVxKk 0 1, ⟨rfl, rfl⟩, by unfold Fetchable; decide, by decide, by decide⟩

theorem witness_UnknownWordAlwaysFaults :
    ∃ (s : State) (w : Word), Running s ∧ Fetchable s ∧ decode (wordAtPc s) = .unknown w :=
  ⟨launch 0xFFE 0x0000, 0x0000, ⟨rfl, rfl⟩, by unfold Fetchable; decide, by decide⟩

theorem witness_FetchReadsWordAtPc :
    (∃ s : State, s.pc.toNat + 2 ≤ Config.ramSize ∧ s.pc.toNat = 0xFFE) ∧
    (∃ s : State, Config.ramSize < s.pc.toNat + 2 ∧ s.pc.toNat = 0xFFF) :=
  ⟨⟨{ State.reset with pc := 0xFFE }, by decide⟩, ⟨{ State.reset with pc := 0xFFF }, by decide⟩⟩

theorem witness_FetchBeyondMemoryFaults :
    ∃ s : State, Running s ∧ Config.ramSize < s.pc.toNat + 2 ∧ s.pc.toNat = 0xFFF :=
  ⟨{ State.reset with pc := 0xFFF }, ⟨rfl, rfl⟩, by decide, by decide⟩

/-- The record of a fetch fault at 0xFFF (V-CY-5). -/
def fetchRecord : FaultRecord := ⟨.addressFault, 0xFFF, none, some 0x1001, none⟩

theorem witness_FaultedBlockIsFrozen : ∃ s : State, s.fault ≠ none := ⟨{ State.reset with fault := some fetchRecord }, by decide⟩

/-- A fixed input; none, as at reset; below the period and exactly at it; and with an input that is free, a period longer
than any time so far or of 0. -/
theorem witness_TimerPhaseFollowsAccumulator :
    (∃ (s : State) (inp : TickInput) (rest : List TickInput), s.inputs = inp :: rest) ∧
    State.reset.inputs = [] ∧
    (∃ s : State, s.acc.val + (afterTimers s).ports.elapsed.val < s.params.framePeriod.val ∧
      (afterTimers s).ports.elapsed.val = 0) ∧
    (∃ s : State, s.params.framePeriod.val ≤ s.acc.val + (afterTimers s).ports.elapsed.val ∧
      (afterTimers s).ports.elapsed.val = 1000 / 60) ∧
    (∃ s : State, s.inputs = [] ∧ s.acc.val + (afterTimers s).ports.elapsed.val < s.params.framePeriod.val) ∧
    (∃ s : State, s.inputs = [] ∧ s.params.framePeriod.val ≤ s.acc.val + (afterTimers s).ports.elapsed.val) :=
  ⟨⟨{ State.reset with inputs := [quiet] }, quiet, [], rfl⟩, rfl,
    ⟨{ State.reset with inputs := [quiet] }, by decide +kernel, rfl⟩,
    ⟨{ State.reset with inputs := [framePasses] }, by decide +kernel, rfl⟩,
    ⟨{ State.reset with params := { defaultParams with
        framePeriod := ⟨(freeInput 0).elapsed.val + 1, add_nonneg (freeInput 0).elapsed.nonneg zero_le_one⟩ } }, rfl, by
      show 0 + (freeInput 0).elapsed.val < (freeInput 0).elapsed.val + 1
      linarith⟩,
    ⟨{ State.reset with params := { defaultParams with framePeriod := ⟨0, le_refl 0⟩ } }, rfl, by
      show (0 : Rat) ≤ 0 + (freeInput 0).elapsed.val
      simpa using (freeInput 0).elapsed.nonneg⟩⟩

/-- The second state runs `Fx15`. -/
theorem witness_DelayTimerRisesOnlyByItsWrite :
    (∃ s t : State, step s = .next t) ∧
    (∃ (s : State) (x : RegIdx), Running s ∧ Fetchable s ∧ decode (wordAtPc s) = .instr (.ldDtVx x)) :=
  ⟨⟨launch 0x200 0x1200, _, rfl⟩, ⟨launch 0x200 0xF115, 1, ⟨rfl, rfl⟩, by unfold Fetchable; decide, by decide⟩⟩

/-- An instruction that completes, and one of each kind of fault it can raise. -/
theorem witness_FaultsAreExactlyTheTable :
    (∃ (i : Instr) (s t : State), i.WellFormed ∧ s.fault = none ∧ exec i s = .next t ∧ raisedFault i s = none) ∧
    (∃ (i : Instr) (s t : State), i.WellFormed ∧ s.fault = none ∧ exec i s = .next t ∧
      raisedFault i s = some .addressFault) ∧
    (∃ (i : Instr) (s t : State), i.WellFormed ∧ s.fault = none ∧ exec i s = .next t ∧
      raisedFault i s = some .stackUnderflow) ∧
    (∃ (i : Instr) (s t : State), i.WellFormed ∧ s.fault = none ∧ exec i s = .next t ∧
      raisedFault i s = some .stackOverflow) ∧
    (∃ (i : Instr) (s t : State), i.WellFormed ∧ s.fault = none ∧ exec i s = .next t ∧
      raisedFault i s = some .keyIndexFault) :=
  ⟨⟨.drw 0 1 1, State.reset.setI 0xFFF, _, by decide, rfl, rfl, by decide⟩,
    ⟨.drw 0 1 2, State.reset.setI 0xFFF, _, by decide, rfl, rfl, by decide⟩,
    ⟨.ret, State.reset, _, by decide, rfl, rfl, by decide⟩,
    ⟨.call 0xFFF, { State.reset with sp := 16 }, _, by decide, rfl, rfl, by decide⟩,
    ⟨.skp 1, State.reset.setReg 1 16, _, by decide, rfl, rfl, by decide⟩⟩

theorem witness_FaultRecordLocatesFault :
    (∃ (i : Instr) (s t : State) (r : FaultRecord), i.WellFormed ∧ s.fault = none ∧ exec i s = .next t ∧
      t.fault = some r ∧ r.kind = .addressFault) ∧
    (∃ (i : Instr) (s t : State) (r : FaultRecord), i.WellFormed ∧ s.fault = none ∧ exec i s = .next t ∧
      t.fault = some r ∧ r.kind = .keyIndexFault) ∧
    (∃ (i : Instr) (s t : State) (r : FaultRecord), i.WellFormed ∧ s.fault = none ∧ exec i s = .next t ∧
      t.fault = some r ∧ r.kind = .stackUnderflow) :=
  ⟨⟨.jmpV0 0xF01, State.reset.setReg 0 0xFF, _, _, by decide, rfl, rfl, rfl, rfl⟩,
    ⟨.sknp 1, State.reset.setReg 1 16, _, _, by decide, rfl, rfl, rfl, rfl⟩,
    ⟨.ret, State.reset, _, _, by decide, rfl, rfl, rfl, rfl⟩⟩

/-- A store that ends on the last byte, and the byte below it untouched; a CALL into the last entry, and another entry; a
sprite, and a pixel it does not cover. -/
theorem witness_InstructionsKeepTheirFrame :
    (∃ (i : Instr) (s t : State), exec i s = .next t ∧ t.fault = s.fault ∧
      ∃ a, a = 0xFEF ∧ ∀ k, k < storedCount i → a ≠ effectiveAddress s k) ∧
    (∃ (i : Instr) (s t : State), exec i s = .next t ∧ t.fault = s.fault ∧
      ∃ j : Fin Config.stackDepth, j.val = 14 ∧ ¬ (j.val = s.sp.val ∧ ∃ nnn, i = .call nnn)) ∧
    (∃ (i : Instr) (s t : State), exec i s = .next t ∧ t.fault = s.fault ∧
      ∃ p, i ≠ .cls ∧ ∀ x y n, i = .drw x y n → ¬ spriteCovers s x y n p) :=
  ⟨⟨.ldMemVx 0xF, State.reset.setI 0xFF0, _, rfl, rfl, 0xFEF, rfl, by decide⟩,
    ⟨.call 0x300, { State.reset with sp := 15 }, _, rfl, rfl, 14, rfl, fun h => absurd h.1 (by decide)⟩,
    ⟨.drw 0 1 0, State.reset, _, rfl, rfl, (0, 0), by decide, fun _ _ _ h => by
      cases h
      exact fun ⟨_, hr, _⟩ => absurd hr (by omega)⟩⟩

theorem witness_FaultingInstructionHasNoEffect :
    ∃ (i : Instr) (s t : State), exec i s = .next t ∧ t.fault ≠ s.fault :=
  ⟨.ret, State.reset, _, rfl, by decide⟩

/-- A faulted state, a waiting state and a Running state that meet the invariant and step. -/
theorem witness_EveryStepKeepsInvariant :
    (∃ s t : State, s.Inv ∧ step s = .next t ∧ s.fault ≠ none) ∧
    (∃ s t : State, s.Inv ∧ step s = .next t ∧ s.haltedOnKey ≠ none) ∧
    (∃ s t : State, s.Inv ∧ step s = .next t ∧ Running s ∧ s.pc.toNat = Config.ramSize) := by
  refine ⟨⟨{ State.reset with fault := some fetchRecord }, _, ⟨⟨.nil, by simp [State.reset]⟩, by decide, by decide, by decide,
      fun _ => rfl, ?_⟩, rfl, by decide⟩,
    ⟨{ State.reset with haltedOnKey := some 4, inputs := [quiet] }, _, ⟨⟨.nil, by simp [State.reset]⟩, by decide, by decide,
      by decide, fun h => absurd rfl h, fun r h => by cases h⟩, rfl, by decide⟩,
    ⟨{ State.reset with pc := 0x1000, inputs := [quiet] }, _, ⟨⟨.nil, by simp [State.reset]⟩, by decide, by decide, by decide,
      fun h => absurd rfl h, fun r h => by cases h⟩, rfl, ⟨rfl, rfl⟩, by decide⟩⟩
  intro r h
  cases h
  exact ⟨by decide, by simp [fetchRecord, Config.ramSize], by decide, by simp [fetchRecord], by decide⟩

theorem witness_SoundTimerIsUnobservable : ∃ s t : State, step s = .next t := ⟨launch 0x200 0xF318, _, rfl⟩

/-- One entry in use, the unused ones different. -/
theorem witness_UnusedStackIsUnobservable :
    ∃ (s t : State) (k : Vector StackEntry Config.stackDepth),
      (∀ j : Fin Config.stackDepth, j.val < s.sp.val → k[j] = s.stack[j]) ∧ step s = .next t ∧ k ≠ s.stack :=
  ⟨{ launch 0x200 0x00EE with sp := 1 }, _, State.reset.stack.set 15 0x222, by decide, rfl, by decide⟩

theorem witness_LoaderPlacesProgram :
    (∃ bytes : List Byte, bytes.length ≤ 3584 ∧ bytes.length = 3584) ∧
    (∃ bytes : List Byte, 3584 < bytes.length ∧ bytes.length = 3585) :=
  ⟨⟨List.replicate 3584 0, List.length_replicate.le, List.length_replicate⟩,
    ⟨List.replicate 3585 0, List.length_replicate.ge, List.length_replicate⟩⟩

theorem witness_EveryStepKeepsParameters : ∃ s t : State, step s = .next t ∧ s.params ≠ defaultParams :=
  ⟨{ launch 0x200 0x8476 with params := { defaultParams with shiftSource := .vy } }, _, rfl, by decide⟩

theorem witness_DecodeOfEncode :
    ∃ i : Instr, i.WellFormed ∧ i = .drw 0xF 0xF 15 := ⟨_, by decide, rfl⟩

theorem witness_DecodeAgreesWithOpcodeMap :
    (∃ (w : Word) (i : Instr), decode w = .instr i) ∧ (∃ w : Word, decode w = .unknown w) :=
  ⟨⟨0x00E0, .cls, by decide⟩, ⟨0x0000, by decide⟩⟩

end Sys2Proof.Tests
end

section
/-! SUPPORT. The words `base | nnn` of the statements, and what a jump leaves unchanged. -/

namespace Sys2Proof.Machine

/-- The word `op << 12 | nnn` of an encoding line is the format FA word of R72. -/
theorem wordA_eq_formatFA (op : BitVec 4) {nnn : Nat} (h : nnn < 4096) :
    wordA (op.toNat <<< 12) nnn = formatFA op nnn := by
  have hop := op.isLt
  apply BitVec.eq_of_toNat_eq
  rw [formatFA_toNat op h, wordA, BitVec.toNat_ofNat, ← Nat.shiftLeft_add_eq_or_of_lt h, Nat.shiftLeft_eq]
  exact Nat.mod_eq_of_lt (show op.toNat * 4096 + nnn < 65536 by omega)

/-- Writing `PC` writes no other part of the state. -/
theorem unchanged_setPc (s : State) (w : PcVal) : Unchanged [.pc] s (s.setPc w) := by
  intro p hp
  cases p with
  | pc => exact absurd (List.mem_singleton.mpr rfl) hp
  | _ => simp [Part.same]

/-- An instruction that ends in `jump` to an address inside memory completes at that address (R107). -/
theorem jumpsTo_of_exec_eq_jump {i : Instr} {s : State} {a : Nat} (he : exec i s = complete s (jump i a s))
    (ha : a < Config.ramSize) : JumpsTo i s a := by
  refine ⟨_, by rw [he, jump_of_lt ha, complete_ok], ?_, unchanged_setPc s _⟩
  simp only [Config.ramSize] at ha
  simp only [setPc_pc, BitVec.toNat_ofNat, Config.pcWidth]
  omega

end Sys2Proof.Machine
end

section
/-! PROOF. The jump of 41_control_flow.md. -/

namespace Sys2Proof.Machine

/-- The decoder reads the format FA word of family 1 as JMP (R74, R75). -/
theorem decode_formatFA_jmp {nnn : Nat} (h : nnn < 4096) : decode (formatFA 0x1#4 nnn) = .instr (.jmp nnn) := by
  obtain ⟨hop, hnnn⟩ := fields_formatFA 0x1#4 h
  simp [decode, hop, hnnn]

theorem exec_jmp (nnn : Nat) (s : State) : exec (.jmp nnn) s = complete s (jump (.jmp nnn) nnn s) := rfl

/-- Settles O1: a 12-bit target is below `RAM_SIZE`, so the range check of `jump` always passes. -/
theorem jmpSetsPc : Obligations.JmpSetsPc := by
  unfold Obligations.JmpSetsPc
  intro nnn h
  have hw : wordA 0x1000 nnn = formatFA 0x1#4 nnn := wordA_eq_formatFA 0x1#4 h
  exact ⟨hw ▸ decode_formatFA_jmp h, fun s => jumpsTo_of_exec_eq_jump (exec_jmp nnn s) h⟩

end Sys2Proof.Machine
end

section
/-! SUPPORT. The words `base | x << 8 | kk` of the statements, and what a write of one register leaves unchanged. -/

namespace Sys2Proof.Machine

/-- The word `op << 12 | x << 8 | kk` of an encoding line is the format FXK word of R72. -/
theorem wordXK_eq_formatFXK (op : BitVec 4) (x : RegIdx) (kk : Byte) :
    wordXK (op.toNat <<< 12) x kk = formatFXK op x kk := by
  have hop := op.isLt
  have hx := x.isLt
  have hkk := kk.isLt
  simp only [Config.numRegs] at hx
  have hxkk : x.val <<< 8 ||| kk.toNat = x.val * 256 + kk.toNat := by
    rw [← Nat.shiftLeft_add_eq_or_of_lt (by simpa using hkk), Nat.shiftLeft_eq]
  apply BitVec.eq_of_toNat_eq
  rw [formatFXK_toNat, wordXK, BitVec.toNat_ofNat, Nat.or_assoc, hxkk,
    ← Nat.shiftLeft_add_eq_or_of_lt (by omega), Nat.shiftLeft_eq, Nat.add_assoc]
  exact Nat.mod_eq_of_lt (show op.toNat * 4096 + (x.val * 256 + kk.toNat) < 65536 by omega)

/-- Writing `V[x]` writes no other register. -/
theorem regsUnchanged_setReg (s : State) (x : RegIdx) (b : RegVal) : RegsUnchanged [x] s (s.setReg x b) :=
  fun _ hy => reg_setReg_other s (List.ne_of_not_mem_cons hy) b

/-- Writing a register writes no other part of the state. -/
theorem unchanged_setReg (s : State) (x : RegIdx) (b : RegVal) : Unchanged [.regs] s (s.setReg x b) := by
  intro p hp
  cases p with
  | regs => exact absurd (List.mem_singleton.mpr rfl) hp
  | _ => simp [Part.same]

/-- An instruction whose whole meaning is a write of `V[x]` has the effect of the statements' `WritesReg`. -/
theorem writesReg_of_exec_eq_setReg {i : Instr} {s : State} {x : RegIdx} {b : RegVal}
    (he : exec i s = .next (s.setReg x b)) : WritesReg i s x b.toNat :=
  ⟨_, he, congrArg BitVec.toNat (reg_setReg_same s x b), regsUnchanged_setReg s x b, unchanged_setReg s x b⟩

/-- R151: an ALU operation without a flag writes `V[x]` alone. -/
theorem runAlu_of_aluFlag_none {op : AluOp} {a b : RegVal} (h : aluFlag op a b = none) (x : RegIdx) (s : State) :
    runAlu op x a b s = s.setReg x (aluResult op a b) := by
  rw [runAlu, h]
  rfl

end Sys2Proof.Machine
end

section
/-! PROOF. The immediate load, the immediate add and the random byte of 42_register_load.md. -/

namespace Sys2Proof.Machine

/-! ### The decoder on the format FXK words of families 6, 7 and C (R74, R75) -/

theorem decode_formatFXK_ldVxKk (x : RegIdx) (kk : Byte) : decode (formatFXK 0x6#4 x kk) = .instr (.ldVxKk x kk) := by
  obtain ⟨hop, hx, hkk⟩ := fields_formatFXK 0x6#4 x kk
  simp [decode, hop, hx, hkk]

theorem decode_formatFXK_addVxKk (x : RegIdx) (kk : Byte) : decode (formatFXK 0x7#4 x kk) = .instr (.addVxKk x kk) := by
  obtain ⟨hop, hx, hkk⟩ := fields_formatFXK 0x7#4 x kk
  simp [decode, hop, hx, hkk]

theorem decode_formatFXK_rnd (x : RegIdx) (kk : Byte) : decode (formatFXK 0xC#4 x kk) = .instr (.rnd x kk) := by
  obtain ⟨hop, hx, hkk⟩ := fields_formatFXK 0xC#4 x kk
  simp [decode, hop, hx, hkk]

/-! ### The meanings, each one write of `V[x]` -/

theorem exec_ldVxKk (x : RegIdx) (kk : Byte) (s : State) : exec (.ldVxKk x kk) s = .next (s.setReg x kk) := rfl

/-- R141: the add without a flag, so `VF` is written only where it is `V[x]`. -/
theorem exec_addVxKk (x : RegIdx) (kk : Byte) (s : State) :
    exec (.addVxKk x kk) s = .next (s.setReg x (s.reg x + kk)) :=
  congrArg Host.Outcome.next (runAlu_of_aluFlag_none (op := .addNf) rfl x s)

theorem exec_rnd (x : RegIdx) (kk : Byte) (s : State) :
    exec (.rnd x kk) s = .next (s.setReg x (s.ports.randomByte &&& kk)) := rfl

/-- Settles O8: both are one register write; the sum of two bytes wraps modulo 256. -/
theorem immediateLoadAndAdd : Obligations.ImmediateLoadAndAdd := by
  unfold Obligations.ImmediateLoadAndAdd
  intro x kk
  have hld : wordXK 0x6000 x kk = formatFXK 0x6#4 x kk := wordXK_eq_formatFXK 0x6#4 x kk
  have hadd : wordXK 0x7000 x kk = formatFXK 0x7#4 x kk := wordXK_eq_formatFXK 0x7#4 x kk
  refine ⟨hld ▸ decode_formatFXK_ldVxKk x kk, hadd ▸ decode_formatFXK_addVxKk x kk, fun s => ⟨?_, ?_⟩⟩
  · exact writesReg_of_exec_eq_setReg (exec_ldVxKk x kk s)
  · have hsum : (s.reg x + kk).toNat = ((s.reg x).toNat + kk.toNat) % 256 := BitVec.toNat_add (s.reg x) kk
    exact hsum ▸ writesReg_of_exec_eq_setReg (exec_addVxKk x kk s)

/-- Settles O9: one register write, of the port's answer and the mask, bit by bit. -/
theorem rndMasksPortAnswer : Obligations.RndMasksPortAnswer := by
  unfold Obligations.RndMasksPortAnswer
  intro x kk
  have hw : wordXK 0xC000 x kk = formatFXK 0xC#4 x kk := wordXK_eq_formatFXK 0xC#4 x kk
  refine ⟨hw ▸ decode_formatFXK_rnd x kk, fun s => ⟨_, exec_rnd x kk s, fun k => ?_,
    regsUnchanged_setReg s x _, unchanged_setReg s x _⟩⟩
  rw [reg_setReg_same, BitVec.getLsbD_and]

end Sys2Proof.Machine
end

section
/-! SUPPORT. The words `base | x << 8 | y << 4` of the statements, and what the ALU's write-back leaves unchanged. -/

namespace Sys2Proof.Machine

/-- The word `op << 12 | x << 8 | y << 4 | n` is the format FXY or FXYN word of R72. -/
theorem wordXYN_eq_formatFXY (op n : BitVec 4) (x y : RegIdx) :
    wordXYN (op.toNat <<< 12) x y n.toNat = formatFXY op x y n := by
  have hop := op.isLt
  have hx := x.isLt
  have hy := y.isLt
  have hn := n.isLt
  simp only [Config.numRegs] at hx hy
  have hyn : y.val <<< 4 ||| n.toNat = y.val * 16 + n.toNat := by
    rw [← Nat.shiftLeft_add_eq_or_of_lt (by simpa using hn), Nat.shiftLeft_eq]
  have hxyn : x.val <<< 8 ||| (y.val * 16 + n.toNat) = x.val * 256 + (y.val * 16 + n.toNat) := by
    rw [← Nat.shiftLeft_add_eq_or_of_lt (by omega), Nat.shiftLeft_eq]
  apply BitVec.eq_of_toNat_eq
  rw [formatFXY_toNat, wordXYN, BitVec.toNat_ofNat, Nat.or_assoc, Nat.or_assoc, hyn, hxyn,
    ← Nat.shiftLeft_add_eq_or_of_lt (by omega), Nat.shiftLeft_eq, Nat.add_assoc, Nat.add_assoc]
  exact Nat.mod_eq_of_lt (show op.toNat * 4096 + (x.val * 256 + (y.val * 16 + n.toNat)) < 65536 by omega)

/-- A low nibble written into the base, as the encoding lines of family 8 write it, is the nibble `n` of the word. -/
theorem wordXY_or_eq_wordXYN (base n : Nat) (x y : RegIdx) : wordXY (base ||| n) x y = wordXYN base x y n := by
  rw [wordXY, wordXYN, Nat.or_right_comm base, Nat.or_right_comm (base ||| _)]

/-- In family 8 the low nibble alone selects the instruction (R74, R75). -/
theorem decode_wordXY_of_decode8 {n : BitVec 4} {i : RegIdx → RegIdx → Instr}
    (h : ∀ w, nField w = n.toNat → decode8 w = .instr (i (xField w) (yField w))) (x y : RegIdx) :
    decode (wordXY (0x8000 ||| n.toNat) x y) = .instr (i x y) := by
  have hw : wordXY (0x8000 ||| n.toNat) x y = formatFXY 0x8#4 x y n :=
    (wordXY_or_eq_wordXYN _ _ x y).trans (wordXYN_eq_formatFXY 0x8#4 n x y)
  obtain ⟨hop, hx, hy, hn⟩ := fields_formatFXY 0x8#4 x y n
  have hfam : decode (formatFXY 0x8#4 x y n) = decode8 (formatFXY 0x8#4 x y n) := by simp [decode, hop]
  rw [hw, hfam, h _ hn, hx, hy]

/-- The ALU's write-back writes no part of the state but the registers. -/
theorem unchanged_runAlu (op : AluOp) (x : RegIdx) (a b : RegVal) (s : State) :
    Unchanged [.regs] s (runAlu op x a b s) := by
  rw [runAlu_frame]
  intro p hp
  cases p with
  | regs => exact absurd (List.mem_singleton.mpr rfl) hp
  | _ => simp [Part.same, State.byteAt]

/-- R151: an instruction that runs an ALU operation with a flag has the effect of the statements' `WritesRegAndFlag`. -/
theorem writesRegAndFlag_of_exec_eq_runAlu {i : Instr} {s : State} {op : AluOp} {x : RegIdx} {a b : RegVal}
    {f : Bool} {p : Prop} {r : Nat} (he : exec i s = .next (runAlu op x a b s)) (hr : (aluResult op a b).toNat = r)
    (hf : aluFlag op a b = some f) (hp : f = true ↔ p) : WritesRegAndFlag i s x r p := by
  have hreg (z : RegIdx) : (runAlu op x a b s).reg z =
      if 0xF = z then flagByte f else if x = z then aluResult op a b else s.reg z := by
    rw [reg_runAlu, hf]
    rfl
  have hvf : (runAlu op x a b s).reg 0xF = flagByte f := by rw [hreg, if_pos rfl]
  refine ⟨_, he, fun hx => ?_, fun h => ?_, fun h => ?_, fun z hz => ?_, unchanged_runAlu op x a b s⟩
  · rw [hreg, if_neg (Ne.symm hx), if_pos rfl, hr]
  · rw [hvf, hp.mpr h]
    rfl
  · rw [hvf, Bool.eq_false_iff.mpr fun hf => h (hp.mp hf)]
    rfl
  · simp only [List.mem_cons, List.not_mem_nil, or_false, not_or] at hz
    rw [hreg, if_neg (Ne.symm hz.2), if_neg (Ne.symm hz.1)]

/-- An instruction whose whole meaning is a write of `V[x]`, the value given bit by bit. -/
theorem writesBits_of_exec_eq_setReg {i : Instr} {s : State} {x : RegIdx} {b : RegVal} {bit : Nat → Bool}
    (he : exec i s = .next (s.setReg x b)) (hb : ∀ k, b.getLsbD k = bit k) :
    ∃ t, exec i s = .next t ∧ (∀ k, (t.reg x).getLsbD k = bit k) ∧ RegsUnchanged [x] s t ∧ Unchanged [.regs] s t :=
  ⟨_, he, fun k => by rw [reg_setReg_same, hb], regsUnchanged_setReg s x b, unchanged_setReg s x b⟩

end Sys2Proof.Machine
end

section
/-! PROOF. The register-register family of 43_alu.md: copy, logic, addition and the two subtractions. -/

namespace Sys2Proof.Machine

/-! ### The decoder on the words of family 8 (R74, R75) -/

theorem decode_wordXY_ldVxVy (x y : RegIdx) : decode (wordXY 0x8000 x y) = .instr (.ldVxVy x y) :=
  decode_wordXY_of_decode8 (n := 0x0#4) (fun _ h => by simp [decode8, h]) x y

theorem decode_wordXY_or (x y : RegIdx) : decode (wordXY 0x8001 x y) = .instr (.or x y) :=
  decode_wordXY_of_decode8 (n := 0x1#4) (fun _ h => by simp [decode8, h]) x y

theorem decode_wordXY_and (x y : RegIdx) : decode (wordXY 0x8002 x y) = .instr (.and x y) :=
  decode_wordXY_of_decode8 (n := 0x2#4) (fun _ h => by simp [decode8, h]) x y

theorem decode_wordXY_xor (x y : RegIdx) : decode (wordXY 0x8003 x y) = .instr (.xor x y) :=
  decode_wordXY_of_decode8 (n := 0x3#4) (fun _ h => by simp [decode8, h]) x y

theorem decode_wordXY_addVxVy (x y : RegIdx) : decode (wordXY 0x8004 x y) = .instr (.addVxVy x y) :=
  decode_wordXY_of_decode8 (n := 0x4#4) (fun _ h => by simp [decode8, h]) x y

theorem decode_wordXY_sub (x y : RegIdx) : decode (wordXY 0x8005 x y) = .instr (.sub x y) :=
  decode_wordXY_of_decode8 (n := 0x5#4) (fun _ h => by simp [decode8, h]) x y

theorem decode_wordXY_subn (x y : RegIdx) : decode (wordXY 0x8007 x y) = .instr (.subn x y) :=
  decode_wordXY_of_decode8 (n := 0x7#4) (fun _ h => by simp [decode8, h]) x y

/-! ### The meanings: one write of `V[x]` where the operation has no flag, else the ALU's write-back -/

theorem exec_ldVxVy (x y : RegIdx) (s : State) : exec (.ldVxVy x y) s = .next (s.setReg x (s.reg y)) :=
  congrArg Host.Outcome.next (runAlu_of_aluFlag_none (op := .passB) rfl x s)

theorem exec_or (x y : RegIdx) (s : State) : exec (.or x y) s = .next (s.setReg x (s.reg x ||| s.reg y)) :=
  congrArg Host.Outcome.next (runAlu_of_aluFlag_none (op := .or) rfl x s)

theorem exec_and (x y : RegIdx) (s : State) : exec (.and x y) s = .next (s.setReg x (s.reg x &&& s.reg y)) :=
  congrArg Host.Outcome.next (runAlu_of_aluFlag_none (op := .and) rfl x s)

theorem exec_xor (x y : RegIdx) (s : State) : exec (.xor x y) s = .next (s.setReg x (s.reg x ^^^ s.reg y)) :=
  congrArg Host.Outcome.next (runAlu_of_aluFlag_none (op := .xor) rfl x s)

theorem exec_addVxVy (x y : RegIdx) (s : State) :
    exec (.addVxVy x y) s = .next (runAlu .add x (s.reg x) (s.reg y) s) := rfl

theorem exec_sub (x y : RegIdx) (s : State) : exec (.sub x y) s = .next (runAlu .sub x (s.reg x) (s.reg y) s) := rfl

theorem exec_subn (x y : RegIdx) (s : State) : exec (.subn x y) s = .next (runAlu .subn x (s.reg x) (s.reg y) s) := rfl

/-! ### Carry and borrow -/

theorem carryOut_iff (a b : RegVal) : carryOut a b = true ↔ 255 < a.toNat + b.toNat := decide_eq_true_iff

theorem noBorrow_iff (a b : RegVal) : noBorrow a b = true ↔ b.toNat ≤ a.toNat := decide_eq_true_iff

/-- The difference of two registers, as R157 and R159 write it: modulo 256. -/
theorem regVal_toNat_sub (a b : RegVal) : (a - b).toNat = (a.toNat + 256 - b.toNat) % 256 := by
  have hb : b.toNat < 256 := b.isLt
  have hsub : (a - b).toNat = (256 - b.toNat + a.toNat) % 256 := BitVec.toNat_sub a b
  omega

/-! ### The statements -/

/-- Settles O10: the ALU's `PASS_B` has no flag, so the copy is one register write. -/
theorem registerCopy : Obligations.RegisterCopy := by
  unfold Obligations.RegisterCopy
  exact fun x y => ⟨decode_wordXY_ldVxVy x y, fun s => writesReg_of_exec_eq_setReg (exec_ldVxVy x y s)⟩

/-- Settles O11: none of the three has a flag, so each is one register write, of the operation bit by bit. -/
theorem logicActsBitwise : Obligations.LogicActsBitwise := by
  unfold Obligations.LogicActsBitwise
  refine fun x y => ⟨decode_wordXY_or x y, decode_wordXY_and x y, decode_wordXY_xor x y, fun s => ⟨?_, ?_, ?_⟩⟩
  · exact writesBits_of_exec_eq_setReg (exec_or x y s) fun _ => BitVec.getLsbD_or
  · exact writesBits_of_exec_eq_setReg (exec_and x y s) fun _ => BitVec.getLsbD_and
  · exact writesBits_of_exec_eq_setReg (exec_xor x y s) fun _ => BitVec.getLsbD_xor

/-- Settles O12: the sum of two bytes wraps modulo 256, and the carry is written after it. -/
theorem addWritesCarry : Obligations.AddWritesCarry := by
  unfold Obligations.AddWritesCarry
  exact fun x y => ⟨decode_wordXY_addVxVy x y, fun s =>
    writesRegAndFlag_of_exec_eq_runAlu (exec_addVxVy x y s) (BitVec.toNat_add _ _) rfl (carryOut_iff _ _)⟩

/-- Settles O13: SUBN is SUB with its operands exchanged, in the difference and in the flag. -/
theorem subAndSubnWriteNoBorrow : Obligations.SubAndSubnWriteNoBorrow := by
  unfold Obligations.SubAndSubnWriteNoBorrow
  refine fun x y => ⟨decode_wordXY_sub x y, decode_wordXY_subn x y, fun s => ⟨?_, ?_⟩⟩
  · exact writesRegAndFlag_of_exec_eq_runAlu (exec_sub x y s) (regVal_toNat_sub _ _) rfl (noBorrow_iff _ _)
  · exact writesRegAndFlag_of_exec_eq_runAlu (exec_subn x y s) (regVal_toNat_sub _ _) rfl (noBorrow_iff _ _)

end Sys2Proof.Machine
end

section
/-! SUPPORT. What a write of `I` leaves unchanged. -/

namespace Sys2Proof.Machine

/-- Writing `I` writes no other part of the state. -/
theorem unchanged_setI (s : State) (w : IVal) : Unchanged [.i] s (s.setI w) := by
  intro p hp
  cases p with
  | i => exact absurd (List.mem_singleton.mpr rfl) hp
  | _ => simp [Part.same]

/-- An instruction whose whole meaning is a write of `I` has the effect of the statements' `WritesI`. -/
theorem writesI_of_exec_eq_setI {i : Instr} {s : State} {w : IVal} (he : exec i s = .next (s.setI w)) :
    WritesI i s w.toNat :=
  ⟨_, he, congrArg BitVec.toNat (setI_i s w), unchanged_setI s w⟩

end Sys2Proof.Machine
end

section
/-! PROOF. The load of the address register of 44_index_memory.md. -/

namespace Sys2Proof.Machine

/-- The decoder reads the format FA word of family A as LD I, nnn (R74, R75). -/
theorem decode_formatFA_ldINnn {nnn : Nat} (h : nnn < 4096) : decode (formatFA 0xA#4 nnn) = .instr (.ldINnn nnn) := by
  obtain ⟨hop, hnnn⟩ := fields_formatFA 0xA#4 h
  simp [decode, hop, hnnn]

theorem exec_ldINnn (nnn : Nat) (s : State) :
    exec (.ldINnn nnn) s = .next (s.setI (BitVec.ofNat Config.iWidth nnn)) := rfl

/-- Settles O15: the whole meaning is one write of `I`, whose 16 bits hold a 12-bit address as it is. -/
theorem ldILoadsAddress : Obligations.LdILoadsAddress := by
  unfold Obligations.LdILoadsAddress
  intro nnn h
  have hw : wordA 0xA000 nnn = formatFA 0xA#4 nnn := wordA_eq_formatFA 0xA#4 h
  have hfits : (BitVec.ofNat Config.iWidth nnn).toNat = nnn :=
    (BitVec.toNat_ofNat nnn 16).trans (Nat.mod_eq_of_lt (show nnn < 65536 by omega))
  refine ⟨hw ▸ decode_formatFA_ldINnn h, fun s => ?_⟩
  simpa only [hfits] using writesI_of_exec_eq_setI (exec_ldINnn nnn s)

end Sys2Proof.Machine
end

section
/-! SUPPORT. The words `base | x << 8` of the statements, whose base ends in a selector byte, the decoder's family F,
and frames of no change and of two changes in a row. -/

namespace Sys2Proof.Machine

/-! ### Words of format FXS (R72) -/

/-- The word `op << 12 | sel | x << 8` is the format FXS word of R72. -/
theorem wordX_eq_formatFXS (op : BitVec 4) (sel : Byte) (x : RegIdx) :
    wordX (op.toNat <<< 12 ||| sel.toNat) x = formatFXS op x sel := by
  rw [formatFXS_eq, ← wordXK_eq_formatFXK, wordX, wordXK, Nat.or_right_comm]

/-- In family F the low byte alone selects the instruction (R74, R75). -/
theorem decode_wordX_of_decodeF {sel : Byte} {i : RegIdx → Instr}
    (h : ∀ w, kkField w = sel → decodeF w = .instr (i (xField w))) (x : RegIdx) :
    decode (wordX (0xF000 ||| sel.toNat) x) = .instr (i x) := by
  have hw : wordX (0xF000 ||| sel.toNat) x = formatFXK 0xF#4 x sel := wordX_eq_formatFXS 0xF#4 sel x
  obtain ⟨hop, hx, hsel⟩ := fields_formatFXK 0xF#4 x sel
  have hfam : decode (formatFXK 0xF#4 x sel) = decodeF (formatFXK 0xF#4 x sel) := by simp [decode, hop]
  rw [hw, hfam, h _ hsel, hx]

/-! ### Frames -/

theorem unchanged_refl (but : List Part) (s : State) : Unchanged but s s := by
  intro p _
  cases p <;> simp [Part.same]

theorem Part.same_trans {p : Part} {s t u : State} (hst : p.same s t) (htu : p.same t u) : p.same s u := by
  cases p with
  | regs | mem => exact fun a => (htu a).trans (hst a)
  | stack => exact ⟨htu.1.trans hst.1, htu.2.trans hst.2⟩
  | ports =>
    obtain ⟨hports, hinputs, hdraws⟩ := hst
    obtain ⟨hports', hinputs', hdraws'⟩ := htu
    exact ⟨hports'.trans hports, hinputs'.trans hinputs, hdraws'.trans hdraws⟩
  | _ => exact Eq.trans htu hst

/-- Two changes in a row change at most the parts that one of them changes. -/
theorem unchanged_trans {as bs : List Part} {s t u : State} (hst : Unchanged as s t) (htu : Unchanged bs t u) :
    Unchanged (as ++ bs) s u := by
  intro p hp
  obtain ⟨has, hbs⟩ := not_or.mp (mt List.mem_append.mpr hp)
  exact Part.same_trans (hst p has) (htu p hbs)

end Sys2Proof.Machine
end

section
/-! PROOF. The timer instructions and the countdown timer unit of 45_timers.md. -/

namespace Sys2Proof.Machine

/-! ### The decoder on the words of the timer instructions (R74, R75) -/

theorem decode_wordX_ldVxDt (x : RegIdx) : decode (wordX 0xF007 x) = .instr (.ldVxDt x) :=
  decode_wordX_of_decodeF (sel := 0x07#8) (fun _ h => by simp [decodeF, h]) x

theorem decode_wordX_ldDtVx (x : RegIdx) : decode (wordX 0xF015 x) = .instr (.ldDtVx x) :=
  decode_wordX_of_decodeF (sel := 0x15#8) (fun _ h => by simp [decodeF, h]) x

theorem decode_wordX_ldStVx (x : RegIdx) : decode (wordX 0xF018 x) = .instr (.ldStVx x) :=
  decode_wordX_of_decodeF (sel := 0x18#8) (fun _ h => by simp [decodeF, h]) x

/-! ### The meanings, each one write of a register or a timer -/

theorem exec_ldVxDt (x : RegIdx) (s : State) : exec (.ldVxDt x) s = .next (s.setReg x s.dt) := rfl

theorem exec_ldDtVx (x : RegIdx) (s : State) : exec (.ldDtVx x) s = .next (s.setDt (s.reg x)) := rfl

theorem exec_ldStVx (x : RegIdx) (s : State) : exec (.ldStVx x) s = .next (s.setSt (s.reg x)) := rfl

/-! ### What a write of a timer leaves unchanged -/

/-- Writing `DT` writes no other part of the state, `ST` included. -/
theorem unchanged_setDt (s : State) (b : TimerVal) : Unchanged [.dt] s (s.setDt b) := by
  intro p hp
  cases p with
  | dt => exact absurd (List.mem_singleton.mpr rfl) hp
  | _ => simp [Part.same]

/-- Writing `ST` writes no other part of the state, `DT` included. -/
theorem unchanged_setSt (s : State) (b : TimerVal) : Unchanged [.st] s (s.setSt b) := by
  intro p hp
  cases p with
  | st => exact absurd (List.mem_singleton.mpr rfl) hp
  | _ => simp [Part.same]

/-! ### The countdown timer unit (R190) -/

/-- On a frame tick the unit is one write of each timer; neither value depends on the other timer. -/
theorem timerUnit_true (s : State) : timerUnit true s = (s.setDt (countDown s.dt)).setSt (countDown s.st) := rfl

theorem timerUnit_false (s : State) : timerUnit false s = s := rfl

/-! ### The statements -/

/-- Settles O23: each of the three is one write, of `V[x]`, `DT` or `ST`. -/
theorem timerInstructions : Obligations.TimerInstructions := by
  unfold Obligations.TimerInstructions
  refine fun x => ⟨decode_wordX_ldVxDt x, decode_wordX_ldDtVx x, decode_wordX_ldStVx x, fun s => ⟨?_, ?_, ?_⟩⟩
  · exact writesReg_of_exec_eq_setReg (exec_ldVxDt x s)
  · exact ⟨_, exec_ldDtVx x s, setDt_dt s _, unchanged_setDt s _⟩
  · exact ⟨_, exec_ldStVx x s, setSt_st s _, unchanged_setSt s _⟩

/-- Settles O24: a frame tick counts each timer down by its own write, `DT` then `ST`; without one the unit is the
identity. -/
theorem timerUnitCountsDown : Obligations.TimerUnitCountsDown := by
  unfold Obligations.TimerUnitCountsDown
  intro s
  rw [timerUnit_true, timerUnit_false]
  refine ⟨countDown_toNat s.dt, countDown_toNat s.st, ?_, unchanged_refl [] s⟩
  exact unchanged_trans (unchanged_setDt s _) (unchanged_setSt _ _)

end Sys2Proof.Machine
end

section
/-! PROOF. The clear instruction of 47_display.md. -/

namespace Sys2Proof.Machine

/-- The CLS row of the opcode map fixes all 16 bits, so it has one word (R74). -/
theorem decode_cls : decode 0x00E0 = .instr .cls := by decide

theorem exec_cls (s : State) : exec .cls s = .next (s.setScreen clearScreen) := rfl

/-- Writing the display writes no other part of the state. -/
theorem unchanged_setScreen (s : State) (sc : Screen) : Unchanged [.screen] s (s.setScreen sc) := by
  intro p hp
  cases p with
  | screen => exact absurd (List.mem_singleton.mpr rfl) hp
  | _ => simp [Part.same]

/-- Of two writes of the display the second one counts. -/
@[simp] theorem setScreen_setScreen (s : State) (a b : Screen) : (s.setScreen a).setScreen b = s.setScreen b := rfl

/-- Settles O28: the whole meaning is one write of the blank screen, and writing it again writes the same one. -/
theorem clsClearsDisplay : Obligations.ClsClearsDisplay := by
  unfold Obligations.ClsClearsDisplay
  refine ⟨decode_cls, fun s => ⟨s.setScreen clearScreen, exec_cls s, fun p => ?_, unchanged_setScreen s _, ?_⟩⟩
  · rw [setScreen_screen, clearScreen_pixel]
  · rw [exec_cls, setScreen_setScreen]

end Sys2Proof.Machine
end

section
/-! SUPPORT. The fields of the formats as the decoder reads them, as rewrite rules, and a word put together again from
its fields (R71, R72). -/

namespace Sys2Proof

/-! ### The fields of a format's word -/

theorem opField_formatFA (op : BitVec 4) {nnn : Nat} (h : nnn < 4096) : opField (formatFA op nnn) = op.toNat :=
  (fields_formatFA op h).1

theorem nnnField_formatFA (op : BitVec 4) {nnn : Nat} (h : nnn < 4096) : nnnField (formatFA op nnn) = nnn :=
  (fields_formatFA op h).2

@[simp] theorem opField_formatFXK (op : BitVec 4) (x : RegIdx) (kk : Byte) : opField (formatFXK op x kk) = op.toNat :=
  (fields_formatFXK op x kk).1

@[simp] theorem xField_formatFXK (op : BitVec 4) (x : RegIdx) (kk : Byte) : xField (formatFXK op x kk) = x :=
  (fields_formatFXK op x kk).2.1

@[simp] theorem kkField_formatFXK (op : BitVec 4) (x : RegIdx) (kk : Byte) : kkField (formatFXK op x kk) = kk :=
  (fields_formatFXK op x kk).2.2

@[simp] theorem opField_formatFXY (op : BitVec 4) (x y : RegIdx) (n : BitVec 4) :
    opField (formatFXY op x y n) = op.toNat := (fields_formatFXY op x y n).1

@[simp] theorem xField_formatFXY (op : BitVec 4) (x y : RegIdx) (n : BitVec 4) : xField (formatFXY op x y n) = x :=
  (fields_formatFXY op x y n).2.1

@[simp] theorem yField_formatFXY (op : BitVec 4) (x y : RegIdx) (n : BitVec 4) : yField (formatFXY op x y n) = y :=
  (fields_formatFXY op x y n).2.2.1

@[simp] theorem nField_formatFXY (op : BitVec 4) (x y : RegIdx) (n : BitVec 4) :
    nField (formatFXY op x y n) = n.toNat := (fields_formatFXY op x y n).2.2.2

/-! ### A word from its fields -/

theorem nnnField_lt (w : Word) : nnnField w < 4096 := by
  rw [nnnField_eq]
  omega

theorem nField_lt (w : Word) : nField w < 16 := by
  rw [nField_eq]
  omega

theorem formatFA_of_fields {w : Word} {op : BitVec 4} (hop : opField w = op.toNat) : formatFA op (nnnField w) = w := by
  apply BitVec.eq_of_toNat_eq
  rw [formatFA_toNat op (nnnField_lt w), ← hop, opField_eq, nnnField_eq]
  omega

theorem formatFXK_of_fields {w : Word} {op : BitVec 4} (hop : opField w = op.toNat) :
    formatFXK op (xField w) (kkField w) = w := by
  apply BitVec.eq_of_toNat_eq
  rw [formatFXK_toNat, ← hop, opField_eq, xField_val, kkField_toNat]
  omega

theorem formatFXS_of_fields {w : Word} {op : BitVec 4} {sel : Byte} (hop : opField w = op.toNat)
    (hsel : (kkField w).toNat = sel.toNat) : formatFXS op (xField w) sel = w := by
  rw [formatFXS_eq, ← BitVec.eq_of_toNat_eq hsel, formatFXK_of_fields hop]

theorem formatFXY_of_fields {w : Word} {op n : BitVec 4} (hop : opField w = op.toNat) (hn : nField w = n.toNat) :
    formatFXY op (xField w) (yField w) n = w := by
  apply BitVec.eq_of_toNat_eq
  rw [formatFXY_toNat, ← hop, ← hn, opField_eq, xField_val, yField_val, nField_eq]
  omega

end Sys2Proof
end

section
/-! PROOF. The decoder and the encoder of 30_encoding.md undo each other. -/

namespace Sys2Proof.Machine

/-- A well-formed instruction is what the decoder reads in its word: by format, the family and the selector are the ones
the decoder tests, and the operands are the fields it reads (R72, R74, R75). -/
theorem decode_encode {i : Instr} (h : i.WellFormed) : decode (encode i) = .instr i := by
  cases i with
  | cls | ret => decide
  | jmp nnn | call nnn | ldINnn nnn | jmpV0 nnn =>
    have hnnn : nnn < 4096 := (fitsAddress_iff nnn).mp h
    simp [encode, decode, opField_formatFA _ hnnn, nnnField_formatFA _ hnnn]
  | seVxKk x kk | sneVxKk x kk | ldVxKk x kk | addVxKk x kk | rnd x kk => simp [encode, decode]
  | seVxVy x y | sneVxVy x y => simp [encode, decode]
  | ldVxVy x y | or x y | and x y | xor x y | addVxVy x y | sub x y | shr x y | subn x y | shl x y =>
    simp [encode, decode, decode8]
  | drw x y n =>
    have hn : n < 16 := (fitsCount_iff n).mp h
    simp [encode, decode, Nat.mod_eq_of_lt hn]
  | skp x | sknp x => simp [encode, formatFXS_eq, decode, decodeE]
  | ldVxDt x | ldVxK x | ldDtVx x | ldStVx x | addIVx x | ldFVx x | ldBVx x | ldMemVx x | ldVxMem x =>
    simp [encode, formatFXS_eq, decode, decodeF]

/-- Settles O50, by the formats of the instructions' words. -/
theorem decodeOfEncode : Obligations.DecodeOfEncode := by
  unfold Obligations.DecodeOfEncode
  exact fun i h => decode_encode h

end Sys2Proof.Machine
end

section
/-! PROOF. What a word decodes to: an instruction whose word it is, or `Unknown` (R75, R76). -/

namespace Sys2Proof.Machine

/-- What decoding `w` should come to (R75, R76): a well-formed instruction whose word is `w`, or `Unknown` carrying `w`. -/
def Reads (w : Word) (o : Operation) : Prop :=
  (∃ i : Instr, o = .instr i ∧ i.WellFormed ∧ encode i = w) ∨ o = .unknown w

theorem reads_instr {w : Word} {i : Instr} (hi : i.WellFormed) (hw : encode i = w) : Reads w (.instr i) :=
  .inl ⟨i, rfl, hi, hw⟩

theorem reads_unknown (w : Word) : Reads w (.unknown w) := .inr rfl

/-! ### The families that select further (R75) -/

theorem reads_decode0 (w : Word) : Reads w (decode0 w) := by
  unfold decode0
  split
  · next h => exact reads_instr rfl h.symm
  split
  · next h => exact reads_instr rfl h.symm
  · exact reads_unknown w

theorem reads_decode8 {w : Word} (hop : opField w = 0x8) : Reads w (decode8 w) := by
  have hword (n : BitVec 4) (hn : nField w = n.toNat) : formatFXY 0x8#4 (xField w) (yField w) n = w :=
    formatFXY_of_fields hop hn
  unfold decode8
  split
  · next hn => exact reads_instr rfl (hword 0x0#4 hn)
  · next hn => exact reads_instr rfl (hword 0x1#4 hn)
  · next hn => exact reads_instr rfl (hword 0x2#4 hn)
  · next hn => exact reads_instr rfl (hword 0x3#4 hn)
  · next hn => exact reads_instr rfl (hword 0x4#4 hn)
  · next hn => exact reads_instr rfl (hword 0x5#4 hn)
  · next hn => exact reads_instr rfl (hword 0x6#4 hn)
  · next hn => exact reads_instr rfl (hword 0x7#4 hn)
  · next hn => exact reads_instr rfl (hword 0xE#4 hn)
  · exact reads_unknown w

theorem reads_decodeE {w : Word} (hop : opField w = 0xE) : Reads w (decodeE w) := by
  have hword (sel : Byte) (hsel : (kkField w).toNat = sel.toNat) : formatFXS 0xE#4 (xField w) sel = w :=
    formatFXS_of_fields hop hsel
  unfold decodeE
  split
  · next hsel => exact reads_instr rfl (hword 0x9E#8 hsel)
  · next hsel => exact reads_instr rfl (hword 0xA1#8 hsel)
  · exact reads_unknown w

theorem reads_decodeF {w : Word} (hop : opField w = 0xF) : Reads w (decodeF w) := by
  have hword (sel : Byte) (hsel : (kkField w).toNat = sel.toNat) : formatFXS 0xF#4 (xField w) sel = w :=
    formatFXS_of_fields hop hsel
  unfold decodeF
  split
  · next hsel => exact reads_instr rfl (hword 0x07#8 hsel)
  · next hsel => exact reads_instr rfl (hword 0x0A#8 hsel)
  · next hsel => exact reads_instr rfl (hword 0x15#8 hsel)
  · next hsel => exact reads_instr rfl (hword 0x18#8 hsel)
  · next hsel => exact reads_instr rfl (hword 0x1E#8 hsel)
  · next hsel => exact reads_instr rfl (hword 0x29#8 hsel)
  · next hsel => exact reads_instr rfl (hword 0x33#8 hsel)
  · next hsel => exact reads_instr rfl (hword 0x55#8 hsel)
  · next hsel => exact reads_instr rfl (hword 0x65#8 hsel)
  · exact reads_unknown w

/-! ### Every word -/

theorem reads_decode (w : Word) : Reads w (decode w) := by
  have hnnn : fitsAddress (nnnField w) = true := (fitsAddress_iff _).mpr (nnnField_lt w)
  have hcount : fitsCount (nField w) = true := (fitsCount_iff _).mpr (nField_lt w)
  have hlow : nField w = (BitVec.ofNat 4 (nField w)).toNat := (Nat.mod_eq_of_lt (nField_lt w)).symm
  have hfa (op : BitVec 4) (hop : opField w = op.toNat) : formatFA op (nnnField w) = w := formatFA_of_fields hop
  have hfxk (op : BitVec 4) (hop : opField w = op.toNat) : formatFXK op (xField w) (kkField w) = w :=
    formatFXK_of_fields hop
  unfold decode
  split
  · exact reads_decode0 w
  · next hop => exact reads_instr hnnn (hfa 0x1#4 hop)
  · next hop => exact reads_instr hnnn (hfa 0x2#4 hop)
  · next hop => exact reads_instr rfl (hfxk 0x3#4 hop)
  · next hop => exact reads_instr rfl (hfxk 0x4#4 hop)
  · next hop =>
    split
    · next hn => exact reads_instr rfl (formatFXY_of_fields (op := 0x5#4) (n := 0x0#4) hop hn)
    · exact reads_unknown w
  · next hop => exact reads_instr rfl (hfxk 0x6#4 hop)
  · next hop => exact reads_instr rfl (hfxk 0x7#4 hop)
  · next hop => exact reads_decode8 hop
  · next hop =>
    split
    · next hn => exact reads_instr rfl (formatFXY_of_fields (op := 0x9#4) (n := 0x0#4) hop hn)
    · exact reads_unknown w
  · next hop => exact reads_instr hnnn (hfa 0xA#4 hop)
  · next hop => exact reads_instr hnnn (hfa 0xB#4 hop)
  · next hop => exact reads_instr rfl (hfxk 0xC#4 hop)
  · next hop => exact reads_instr hcount (formatFXY_of_fields (op := 0xD#4) hop hlow)
  · next hop => exact reads_decodeE hop
  · next hop => exact reads_decodeF hop
  · exact reads_unknown w

theorem wellFormed_of_decode {w : Word} {i : Instr} (h : decode w = .instr i) : i.WellFormed := by
  obtain ⟨j, hj, hwf, -⟩ | hu := reads_decode w
  · cases h.symm.trans hj
    exact hwf
  · cases h.symm.trans hu

theorem encode_of_decode {w : Word} {i : Instr} (h : decode w = .instr i) : encode i = w := by
  obtain ⟨j, hj, -, hw⟩ | hu := reads_decode w
  · cases h.symm.trans hj
    exact hw
  · cases h.symm.trans hu

theorem eq_of_decode_unknown {w u : Word} (h : decode w = .unknown u) : u = w := by
  obtain ⟨j, hj, -, -⟩ | hu := reads_decode w
  · cases h.symm.trans hj
  · cases h.symm.trans hu
    rfl

/-- Settles O51: each branch of the decoder puts the word together again from the fields it has read. -/
theorem encodeOfDecode : Obligations.EncodeOfDecode := by
  unfold Obligations.EncodeOfDecode
  exact reads_decode

/-- Settles O53: the ten words lie in ten different branches of the decoder. -/
theorem sampleWordsDecode : Obligations.SampleWordsDecode := by
  unfold Obligations.SampleWordsDecode
  decide

end Sys2Proof.Machine
end

section
/-! PROOF. The decoder against the match and mask of the opcode map (R74). -/

namespace Sys2Proof.Machine

/-! ### The rows are apart -/

/-- The word of every instruction matches the instruction's own row. -/
theorem opcodeRow_holds_encode (i : Instr) : i.opcodeRow.holds (encode i) = true := by
  cases i with
  | cls => exact Laws.RowBits.cls
  | ret => exact Laws.RowBits.ret
  | jmp | call | ldINnn | jmpV0 => exact Laws.RowBits.of_eq (Laws.RowBits.fa _ _)
  | seVxKk | sneVxKk | ldVxKk | addVxKk | rnd => exact Laws.RowBits.of_eq (Laws.RowBits.fxk _ _ _)
  | seVxVy | sneVxVy | ldVxVy | or | and | xor | addVxVy | sub | shr | subn | shl =>
    exact Laws.RowBits.of_eq (Laws.RowBits.fxy _ _ _ _)
  | drw => exact Laws.RowBits.of_eq (Laws.RowBits.fxyn _ _ _ _)
  | skp | sknp | ldVxDt | ldVxK | ldDtVx | ldStVx | addIVx | ldFVx | ldBVx | ldMemVx | ldVxMem =>
    exact Laws.RowBits.of_eq (Laws.RowBits.fxs _ _ _)

theorem opcodeRow_mem_opcodeRows (i : Instr) : i.opcodeRow ∈ opcodeRows := by
  cases i <;> simp [opcodeRows, rowSamples, Instr.opcodeRow]

/-- Two rows that agree on the bits both of them fix are one row. -/
theorem opcodeRows_agree : ∀ r ∈ opcodeRows, ∀ r' ∈ opcodeRows, r.bits &&& r'.mask = r'.bits &&& r.mask → r = r' := by
  decide

/-- A word matches one row at most. -/
theorem opcodeRow_unique {r r' : OpcodeRow} (hr : r ∈ opcodeRows) (hr' : r' ∈ opcodeRows) {w : Word}
    (h : r.holds w = true) (h' : r'.holds w = true) : r = r' := by
  have hw : w &&& r.mask = r.bits := beq_iff_eq.mp h
  have hw' : w &&& r'.mask = r'.bits := beq_iff_eq.mp h'
  refine opcodeRows_agree r hr r' hr' ?_
  rw [← hw, ← hw', BitVec.and_assoc, BitVec.and_assoc, BitVec.and_comm r.mask]

/-! ### A word that matches a row is an instruction -/

/-- A field that lies whole in a row's mask is the row's in every word of the row. -/
theorem extractLsb'_of_holds {bits mask w : Word} (h : OpcodeRow.holds ⟨bits, mask⟩ w = true) {start len : Nat}
    (hmask : mask.extractLsb' start len = BitVec.allOnes len) :
    w.extractLsb' start len = bits.extractLsb' start len := by
  have hw : w &&& mask = bits := beq_iff_eq.mp h
  rw [← hw, BitVec.extractLsb'_and, hmask, BitVec.and_allOnes]

theorem eq_of_holds_FFFF {bits w : Word} (h : OpcodeRow.holds ⟨bits, 0xFFFF#16⟩ w = true) : w = bits := by
  have hw : w &&& BitVec.allOnes 16 = bits := beq_iff_eq.mp h
  rw [← hw, BitVec.and_allOnes]

theorem opField_of_holds_F000 {bits w : Word} (h : OpcodeRow.holds ⟨bits, 0xF000#16⟩ w = true) :
    opField w = bits.toNat / 4096 := by
  rw [← opField_eq]
  exact congrArg BitVec.toNat (extractLsb'_of_holds h (by decide))

theorem fields_of_holds_F00F {bits w : Word} (h : OpcodeRow.holds ⟨bits, 0xF00F#16⟩ w = true) :
    opField w = bits.toNat / 4096 ∧ nField w = bits.toNat % 16 := by
  rw [← opField_eq, ← nField_eq]
  exact ⟨congrArg BitVec.toNat (extractLsb'_of_holds h (by decide)),
    congrArg BitVec.toNat (extractLsb'_of_holds h (by decide))⟩

theorem fields_of_holds_F0FF {bits w : Word} (h : OpcodeRow.holds ⟨bits, 0xF0FF#16⟩ w = true) :
    opField w = bits.toNat / 4096 ∧ (kkField w).toNat = bits.toNat % 256 := by
  rw [← opField_eq, ← kkField_toNat]
  exact ⟨congrArg BitVec.toNat (extractLsb'_of_holds h (by decide)),
    congrArg BitVec.toNat (extractLsb'_of_holds h (by decide))⟩

/-- The fields that a row fixes are the ones the decoder tests, so a word of the row is no `Unknown`. -/
theorem exists_decode_of_holds {i : Instr} {w : Word} (h : i.opcodeRow.holds w = true) : ∃ j, decode w = .instr j := by
  cases i with
  | cls => exact ⟨.cls, eq_of_holds_FFFF h ▸ decode_cls⟩
  | ret => exact ⟨.ret, eq_of_holds_FFFF h ▸ decode_encode (i := .ret) rfl⟩
  | jmp | call | seVxKk | sneVxKk | ldVxKk | addVxKk | ldINnn | jmpV0 | rnd | drw =>
    have hop := opField_of_holds_F000 h
    simp [decode, hop]
  | seVxVy | sneVxVy =>
    obtain ⟨hop, hn⟩ := fields_of_holds_F00F h
    simp [decode, hop, hn]
  | ldVxVy | or | and | xor | addVxVy | sub | shr | subn | shl =>
    obtain ⟨hop, hn⟩ := fields_of_holds_F00F h
    simp [decode, hop, decode8, hn]
  | skp | sknp =>
    obtain ⟨hop, hsel⟩ := fields_of_holds_F0FF h
    simp [decode, hop, decodeE, hsel]
  | ldVxDt | ldVxK | ldDtVx | ldStVx | addIVx | ldFVx | ldBVx | ldMemVx | ldVxMem =>
    obtain ⟨hop, hsel⟩ := fields_of_holds_F0FF h
    simp [decode, hop, decodeF, hsel]

/-- Settles O52: the instruction's own row holds its word, and no word is in two rows. -/
theorem decodeAgreesWithOpcodeMap : Obligations.DecodeAgreesWithOpcodeMap := by
  unfold Obligations.DecodeAgreesWithOpcodeMap
  intro w
  have hown {i : Instr} (hi : decode w = .instr i) : i.opcodeRow.holds w = true :=
    encode_of_decode hi ▸ opcodeRow_holds_encode i
  refine ⟨fun i hi r hr => ⟨fun h => ?_, fun h => ?_⟩, fun hu r hr => ?_, fun h => ?_⟩
  · exact opcodeRow_unique hr (opcodeRow_mem_opcodeRows i) h (hown hi)
  · exact h ▸ hown hi
  · obtain ⟨i, -, rfl⟩ := List.mem_map.mp hr
    refine Bool.eq_false_iff.mpr fun hi => ?_
    obtain ⟨j, hj⟩ := exists_decode_of_holds hi
    cases hj.symm.trans hu
  · obtain ⟨i, hi, -, -⟩ | hu := reads_decode w
    · exact absurd (hown hi) (Bool.eq_false_iff.mp (h _ (opcodeRow_mem_opcodeRows i)))
    · exact hu

end Sys2Proof.Machine
end

section
/-! SUPPORT. What an instruction's meaning comes to before its fault is latched: the state it leaves, or the record of
the fault it raises (R104). Every instruction completes this attempt, so its meaning has two cases. -/

namespace Sys2Proof.Machine

/-- The state an instruction leaves, or the record of the fault it raises. -/
def attempt (i : Instr) (s : State) : Attempt :=
  match i with
  | .cls => .ok (s.setScreen clearScreen)
  | .ret => (popReturn .ret s).map fun p => p.2.setPc p.1
  | .jmp nnn => jump i nnn s
  | .call nnn => (pushReturn i s.pc s).bind (jump i nnn)
  | .seVxKk x kk => skip i (s.reg x == kk) s
  | .sneVxKk x kk => skip i (s.reg x != kk) s
  | .seVxVy x y => skip i (s.reg x == s.reg y) s
  | .sneVxVy x y => skip i (s.reg x != s.reg y) s
  | .jmpV0 nnn => jump i (nnn + (s.reg 0).toNat) s
  | .ldVxKk x kk => .ok (s.setReg x kk)
  | .rnd x kk => .ok (s.setReg x (randomByte s &&& kk))
  | .ldVxDt x => .ok (s.setReg x s.dt)
  | .addVxKk x kk => .ok (runAlu .addNf x (s.reg x) kk s)
  | .ldVxVy x y => .ok (runAlu .passB x (s.reg x) (s.reg y) s)
  | .or x y => .ok (runAlu .or x (s.reg x) (s.reg y) s)
  | .and x y => .ok (runAlu .and x (s.reg x) (s.reg y) s)
  | .xor x y => .ok (runAlu .xor x (s.reg x) (s.reg y) s)
  | .addVxVy x y => .ok (runAlu .add x (s.reg x) (s.reg y) s)
  | .sub x y => .ok (runAlu .sub x (s.reg x) (s.reg y) s)
  | .shr x y => .ok (runAlu .shr x (shiftOperand s.params.shiftSource x y s) (s.reg y) s)
  | .subn x y => .ok (runAlu .subn x (s.reg x) (s.reg y) s)
  | .shl x y => .ok (runAlu .shl x (shiftOperand s.params.shiftSource x y s) (s.reg y) s)
  | .ldINnn nnn => .ok (s.setI (BitVec.ofNat Config.iWidth nnn))
  | .addIVx x =>
    let t := effectiveAddress s (s.reg x).toNat
    checked i t (s.setI (BitVec.ofNat Config.iWidth t)) s
  | .ldFVx x =>
    .ok (s.setI (BitVec.ofNat Config.iWidth (Config.fontBase + (s.reg x).toNat * Config.fontGlyphBytes)))
  | .ldBVx x => checked i (effectiveAddress s 2) (s.storeBytes (effectiveAddress s 0) (bcdDigits (s.reg x))) s
  | .ldMemVx x => checked i (effectiveAddress s x.val) (s.storeBytes (effectiveAddress s 0) (regsUpTo x s)) s
  | .ldVxMem x => checked i (effectiveAddress s x.val) (loadRegsUpTo x (effectiveAddress s 0) s) s
  | .drw x y n =>
    if Config.ramSize < effectiveAddress s n then
      .error (faultOf i .addressFault (some (effectiveAddress s n)) none s)
    else .ok (drawAtI x y n s)
  | .skp x => keySkip i x true s
  | .sknp x => keySkip i x false s
  | .ldVxK x => .ok (s.setHalted (some x))
  | .ldDtVx x => .ok (s.setDt (s.reg x))
  | .ldStVx x => .ok (s.setSt (s.reg x))

theorem exec_eq_complete (i : Instr) (s : State) : exec i s = complete s (attempt i s) := by
  cases i <;> rfl

theorem exec_of_attempt_ok {i : Instr} {s t : State} (h : attempt i s = .ok t) : exec i s = .next t := by
  rw [exec_eq_complete, h, complete_ok]

theorem exec_of_attempt_error {i : Instr} {s : State} {r : FaultRecord} (h : attempt i s = .error r) :
    exec i s = .next (latch r s) := by
  rw [exec_eq_complete, h, complete_error]

/-- The two cases of an instruction: its own effect, or its record latched in the state before it (R104). -/
theorem exec_cases {i : Instr} {s t : State} (h : exec i s = .next t) :
    attempt i s = .ok t ∨ ∃ r, attempt i s = .error r ∧ t = latch r s := by
  rw [exec_eq_complete] at h
  exact complete_cases h

theorem raises_of_attempt_error {i : Instr} {s : State} {r : FaultRecord} (h : attempt i s = .error r) :
    Raises i s r.kind := ⟨r, rfl, exec_of_attempt_error h⟩

/-! ### CALL and RET -/

/-- CALL pushes, then jumps (R122). -/
theorem attempt_call_of_lt {s : State} (hsp : s.sp.val < Config.stackDepth) {nnn : Nat} (hnnn : nnn < Config.ramSize) :
    attempt (.call nnn) s =
      .ok ((s.setStack (s.stack.set s.sp.val s.pc hsp) ⟨s.sp.val + 1, Nat.succ_lt_succ hsp⟩).setPc
        (BitVec.ofNat Config.pcWidth nnn)) := by
  simp [attempt, pushReturn_of_lt hsp, Except.bind, jump_of_lt hnnn]

theorem attempt_call_of_ge {s : State} (hsp : s.sp.val < Config.stackDepth) {nnn : Nat} (hnnn : Config.ramSize ≤ nnn) :
    attempt (.call nnn) s = .error (faultOf (.call nnn) .addressFault (some nnn) none s) := by
  simp only [attempt, pushReturn_of_lt hsp, Except.bind, jump_of_ge hnnn]
  rfl

theorem attempt_call_full {s : State} (hsp : s.sp.val = Config.stackDepth) (nnn : Nat) :
    attempt (.call nnn) s = .error (faultOf (.call nnn) .stackOverflow none none s) := by
  simp [attempt, pushReturn_full hsp, Except.bind]

theorem attempt_call_ok {nnn : Nat} {s t : State} (h : attempt (.call nnn) s = .ok t) :
    ∃ hsp : s.sp.val < Config.stackDepth, nnn < Config.ramSize ∧
      t = (s.setStack (s.stack.set s.sp.val s.pc hsp) ⟨s.sp.val + 1, Nat.succ_lt_succ hsp⟩).setPc
        (BitVec.ofNat Config.pcWidth nnn) := by
  by_cases hsp : s.sp.val < Config.stackDepth
  · by_cases hnnn : nnn < Config.ramSize
    · rw [attempt_call_of_lt hsp hnnn] at h
      cases h
      exact ⟨hsp, hnnn, rfl⟩
    · rw [attempt_call_of_ge hsp (Nat.le_of_not_lt hnnn)] at h
      cases h
  · rw [attempt_call_full (by omega)] at h
    cases h

/-- RET pops, then jumps without a check (R120, D12). -/
theorem attempt_ret_of_pos {s : State} (k : Fin Config.stackDepth) (hk : s.sp.val = k.val + 1) :
    attempt .ret s = .ok ((s.setStack s.stack ⟨k.val, Nat.lt_succ_of_lt k.isLt⟩).setPc s.stack[k]) := by
  simp [attempt, popReturn_of_pos k hk, Except.map]

theorem attempt_ret_empty {s : State} (hsp : s.sp.val = 0) :
    attempt .ret s = .error (faultOf .ret .stackUnderflow none none s) := by
  simp [attempt, popReturn_empty hsp, Except.map]

/-- With an entry in use there is a newest one. -/
theorem exists_newest_entry {s : State} (h : s.sp.val ≠ 0) : ∃ k : Fin Config.stackDepth, s.sp.val = k.val + 1 := by
  have hsp := s.sp.isLt
  exact ⟨⟨s.sp.val - 1, by omega⟩, (Nat.succ_pred_eq_of_ne_zero h).symm⟩

theorem attempt_ret_ok {s t : State} (h : attempt .ret s = .ok t) :
    ∃ k : Fin Config.stackDepth, s.sp.val = k.val + 1 ∧
      t = (s.setStack s.stack ⟨k.val, Nat.lt_succ_of_lt k.isLt⟩).setPc s.stack[k] := by
  by_cases hsp : s.sp.val = 0
  · rw [attempt_ret_empty hsp] at h
    cases h
  · obtain ⟨k, hk⟩ := exists_newest_entry hsp
    rw [attempt_ret_of_pos k hk] at h
    cases h
    exact ⟨k, hk, rfl⟩

/-! ### DRW -/

theorem attempt_drw_of_le {s : State} {n : Nat} (h : effectiveAddress s n ≤ Config.ramSize) (x y : RegIdx) :
    attempt (.drw x y n) s = .ok (drawAtI x y n s) := if_neg (Nat.not_lt_of_le h)

theorem attempt_drw_of_gt {s : State} {n : Nat} (h : Config.ramSize < effectiveAddress s n) (x y : RegIdx) :
    attempt (.drw x y n) s = .error (faultOf (.drw x y n) .addressFault (some (effectiveAddress s n)) none s) := if_pos h

/-- DRW draws where the rows end inside memory (R212). -/
theorem attempt_drw_ok {x y : RegIdx} {n : Nat} {s t : State} (h : attempt (.drw x y n) s = .ok t) :
    effectiveAddress s n ≤ Config.ramSize ∧ t = drawAtI x y n s := by
  by_cases hle : effectiveAddress s n ≤ Config.ramSize
  · rw [attempt_drw_of_le hle] at h
    cases h
    exact ⟨hle, rfl⟩
  · rw [attempt_drw_of_gt (Nat.lt_of_not_le hle)] at h
    cases h

end Sys2Proof.Machine
end

section
/-! SUPPORT. What each write of the state leaves unchanged, for the writes that have no such lemma yet, and what stores
and sprites leave of memory and of the display. -/

namespace Sys2Proof.Machine

theorem unchanged_mono {as bs : List Part} (h : as ⊆ bs) {s t : State} (hu : Unchanged as s t) : Unchanged bs s t :=
  fun p hp => hu p fun ha => hp (h ha)

theorem regsUnchanged_refl (but : List RegIdx) (s : State) : RegsUnchanged but s s := fun _ _ => rfl

theorem unchanged_setStack (s : State) (st : Vector StackEntry Config.stackDepth) (sp : Fin (Config.stackDepth + 1)) :
    Unchanged [.stack] s (s.setStack st sp) := by
  intro p hp
  cases p with
  | stack => exact absurd (List.mem_singleton.mpr rfl) hp
  | _ => simp [Part.same]

/-- Writing the stack and then `PC` writes no other part of the state. -/
theorem unchanged_setStack_setPc (s : State) (st : Vector StackEntry Config.stackDepth)
    (sp : Fin (Config.stackDepth + 1)) (w : PcVal) : Unchanged [.pc, .stack] s ((s.setStack st sp).setPc w) :=
  unchanged_mono (by decide) (unchanged_trans (unchanged_setStack s st sp) (unchanged_setPc _ w))

theorem unchanged_setHalted (s : State) (k : Option RegIdx) : Unchanged [.halted] s (s.setHalted k) := by
  intro p hp
  cases p with
  | halted => exact absurd (List.mem_singleton.mpr rfl) hp
  | _ => simp [Part.same]

theorem unchanged_storeBytes (s : State) (a : Nat) (bs : List Byte) : Unchanged [.mem] s (s.storeBytes a bs) := by
  intro p hp
  cases p with
  | mem => exact absurd (List.mem_singleton.mpr rfl) hp
  | _ => simp [Part.same]

theorem unchanged_loadRegsUpTo (s : State) (x : RegIdx) (a : Nat) : Unchanged [.regs] s (loadRegsUpTo x a s) := by
  intro p hp
  cases p with
  | regs => exact absurd (List.mem_singleton.mpr rfl) hp
  | _ => simp [Part.same]

theorem unchanged_latch (s : State) (r : FaultRecord) : Unchanged [.fault] s (latch r s) := by
  intro p hp
  cases p with
  | fault => exact absurd (List.mem_singleton.mpr rfl) hp
  | _ => simp [Part.same]

theorem unchanged_drawAtI (x y : RegIdx) (n : Nat) (s : State) : Unchanged [.regs, .screen] s (drawAtI x y n s) :=
  unchanged_mono (by decide) (unchanged_trans (unchanged_setScreen s _) (unchanged_setReg _ vf _))

theorem regsUnchanged_drawAtI (x y : RegIdx) (n : Nat) (s : State) : RegsUnchanged [vf] s (drawAtI x y n s) :=
  regsUnchanged_setReg (s.setScreen _) vf _

theorem regsUnchanged_loadRegsUpTo (s : State) (x : RegIdx) (a : Nat) :
    RegsUnchanged ((List.finRange Config.numRegs).filter (· ≤ x)) s (loadRegsUpTo x a s) := by
  intro y hy
  rw [reg_loadRegsUpTo, if_neg (by simpa using hy)]

/-- The ALU's write-back writes no register but `V[x]` and `VF`. -/
theorem regsUnchanged_runAlu (op : AluOp) (x : RegIdx) (a b : RegVal) (s : State) :
    RegsUnchanged [x, vf] s (runAlu op x a b s) := by
  intro z hz
  simp only [List.mem_cons, List.not_mem_nil, or_false, not_or] at hz
  rw [reg_runAlu]
  cases aluFlag op a b with
  | none => exact if_neg (Ne.symm hz.1)
  | some f => exact (if_neg (Ne.symm hz.2)).trans (if_neg (Ne.symm hz.1))

/-! ### Bytes and pixels outside a write -/

theorem effectiveAddress_eq (s : State) (k : Nat) : effectiveAddress s k = effectiveAddress s 0 + k := rfl

/-- A read after a store: the block's byte inside it, the old byte outside it. -/
theorem byteAt_storeBytes (s : State) (a : Nat) (bs : List Byte) (c : Nat) :
    (s.storeBytes a bs).byteAt c = if h : a ≤ c ∧ c < a + bs.length then bs[c - a] else s.byteAt c :=
  Memory.read_writeBytes s.mem a bs c

theorem byteAt_storeBytes_add (s : State) (a : Nat) {bs : List Byte} {k : Nat} (hk : k < bs.length) :
    (s.storeBytes a bs).byteAt (a + k) = bs[k] := by
  rw [byteAt_storeBytes, dif_pos ⟨by omega, by omega⟩]
  simp

theorem byteAt_storeBytes_outside (s : State) {a : Nat} {bs : List Byte} {c : Nat}
    (h : ∀ k, k < bs.length → c ≠ a + k) : (s.storeBytes a bs).byteAt c = s.byteAt c := by
  rw [byteAt_storeBytes, dif_neg]
  intro hc
  exact h (c - a) (by omega) (by omega)

/-- A draw keeps every pixel its sprite does not cover (R213). -/
theorem pixel_drawAtI_of_not_covers {s : State} {x y : RegIdx} {n : Nat} {p : Pixel} (h : ¬ spriteCovers s x y n p) :
    (drawAtI x y n s).screen.pixel p = s.screen.pixel p :=
  togglePixels_of_notMem s.screen _ (mt (mem_spritePixels_iff_spriteCovers s x y n p).mp h)

end Sys2Proof.Machine
end

section
/-! PROOF. What a completing instruction leaves unchanged, over the whole instruction set (R23, R51). -/

namespace Sys2Proof.Machine

/-- Every part outside the ones R23, R26 to R30 and R51 let the instruction write is as before. -/
theorem unchanged_of_attempt_ok {i : Instr} {s t : State} (h : attempt i s = .ok t) :
    Unchanged (writtenParts i) s t := by
  cases i with
  | cls =>
    cases h
    exact unchanged_setScreen s _
  | ret =>
    obtain ⟨k, -, rfl⟩ := attempt_ret_ok h
    exact unchanged_setStack_setPc s _ _ _
  | call nnn =>
    obtain ⟨hlt, -, rfl⟩ := attempt_call_ok h
    exact unchanged_setStack_setPc s _ _ _
  | jmp nnn | jmpV0 nnn =>
    obtain ⟨-, rfl⟩ := jump_ok h
    exact unchanged_setPc s _
  | seVxKk x kk | sneVxKk x kk | seVxVy x kk | sneVxVy x kk =>
    obtain ⟨-, rfl⟩ | ⟨-, -, rfl⟩ := skip_ok h
    · exact unchanged_refl _ _
    · exact unchanged_setPc s _
  | skp x | sknp x =>
    obtain ⟨k, -, hskip⟩ := keySkip_ok h
    obtain ⟨-, rfl⟩ | ⟨-, -, rfl⟩ := skip_ok hskip
    · exact unchanged_refl _ _
    · exact unchanged_setPc s _
  | ldVxKk | rnd | ldVxDt =>
    cases h
    exact unchanged_setReg s _ _
  | addVxKk | ldVxVy | or | and | xor | addVxVy | sub | shr | subn | shl =>
    cases h
    exact unchanged_runAlu _ _ _ _ s
  | ldINnn | ldFVx =>
    cases h
    exact unchanged_setI s _
  | addIVx x =>
    obtain ⟨-, rfl⟩ := checked_ok h
    exact unchanged_setI s _
  | ldBVx x | ldMemVx x =>
    obtain ⟨-, rfl⟩ := checked_ok h
    exact unchanged_storeBytes s _ _
  | ldVxMem x =>
    obtain ⟨-, rfl⟩ := checked_ok h
    exact unchanged_loadRegsUpTo s _ _
  | drw x y n =>
    obtain ⟨-, rfl⟩ := attempt_drw_ok h
    exact unchanged_drawAtI x y n s
  | ldVxK =>
    cases h
    exact unchanged_setHalted s _
  | ldDtVx =>
    cases h
    exact unchanged_setDt s _
  | ldStVx =>
    cases h
    exact unchanged_setSt s _

theorem fault_notMem_writtenParts (i : Instr) : .fault ∉ writtenParts i := by
  cases i <;> simp [writtenParts]

/-- No instruction writes the latch as its own effect. -/
theorem fault_of_attempt_ok {i : Instr} {s t : State} (h : attempt i s = .ok t) : t.fault = s.fault :=
  unchanged_of_attempt_ok h .fault (fault_notMem_writtenParts i)

/-- Every register outside R23's write ports is as before. -/
theorem regsUnchanged_of_attempt_ok {i : Instr} {s t : State} (h : attempt i s = .ok t) :
    RegsUnchanged (writtenRegs i) s t := by
  have hregs (hw : .regs ∉ writtenParts i) : RegsUnchanged (writtenRegs i) s t :=
    fun x _ => unchanged_of_attempt_ok h .regs hw x
  cases i with
  | ldVxKk | rnd | ldVxDt =>
    cases h
    exact regsUnchanged_setReg s _ _
  | addVxKk | ldVxVy | or | and | xor =>
    cases h
    exact regsUnchanged_setReg s _ _
  | addVxVy | sub | shr | subn | shl =>
    cases h
    exact regsUnchanged_runAlu _ _ _ _ s
  | ldVxMem x =>
    obtain ⟨-, rfl⟩ := checked_ok h
    exact regsUnchanged_loadRegsUpTo s _ _
  | drw x y n =>
    obtain ⟨-, rfl⟩ := attempt_drw_ok h
    exact regsUnchanged_drawAtI x y n s
  | _ => exact hregs (by simp [writtenParts])

/-- Every byte but the stored ones reads as before. -/
theorem byteAt_of_attempt_ok {i : Instr} {s t : State} (h : attempt i s = .ok t) {a : Nat}
    (ha : ∀ k, k < storedCount i → a ≠ effectiveAddress s k) : t.byteAt a = s.byteAt a := by
  have hmem (hw : .mem ∉ writtenParts i) : t.byteAt a = s.byteAt a := unchanged_of_attempt_ok h .mem hw a
  cases i with
  | ldBVx x | ldMemVx x =>
    obtain ⟨-, rfl⟩ := checked_ok h
    exact byteAt_storeBytes_outside s fun k hk => ha k (by simpa [storedCount] using hk)
  | _ => exact hmem (by simp [writtenParts])

/-- Every stack entry but the one CALL pushes is as before. -/
theorem stack_of_attempt_ok {i : Instr} {s t : State} (h : attempt i s = .ok t) {j : Fin Config.stackDepth}
    (hj : ¬ (j.val = s.sp.val ∧ ∃ nnn, i = .call nnn)) : t.stack[j] = s.stack[j] := by
  have hstack (hw : .stack ∉ writtenParts i) : t.stack[j] = s.stack[j] := by
    rw [(unchanged_of_attempt_ok h .stack hw).1]
  cases i with
  | ret =>
    obtain ⟨k, -, rfl⟩ := attempt_ret_ok h
    rfl
  | call nnn =>
    obtain ⟨hlt, -, rfl⟩ := attempt_call_ok h
    have hne : s.sp.val ≠ j.val := fun he => hj ⟨he.symm, nnn, rfl⟩
    simp [hne]
  | _ => exact hstack (by simp [writtenParts])

/-- Every pixel but the sprite's of DRW and those CLS clears is as before. -/
theorem pixel_of_attempt_ok {i : Instr} {s t : State} (h : attempt i s = .ok t) {p : Pixel} (hcls : i ≠ .cls)
    (hdrw : ∀ x y n, i = .drw x y n → ¬ spriteCovers s x y n p) : t.screen.pixel p = s.screen.pixel p := by
  have hscreen (hw : .screen ∉ writtenParts i) : t.screen.pixel p = s.screen.pixel p :=
    congrArg (·.pixel p) (unchanged_of_attempt_ok h .screen hw)
  cases i with
  | cls => exact absurd rfl hcls
  | drw x y n =>
    obtain ⟨-, rfl⟩ := attempt_drw_ok h
    exact pixel_drawAtI_of_not_covers (hdrw x y n rfl)
  | _ => exact hscreen (by simp [writtenParts])

/-- Latching the record that is latched already changes nothing. -/
theorem latch_of_fault_eq {s : State} {r : FaultRecord} (h : s.fault = some r) : latch r s = s := by
  rw [latch, ← h]

/-- Settles O41: where the latch stays, the instruction completed (or changed nothing at all), and each part of the
frame is a lemma over the instruction set. -/
theorem instructionsKeepTheirFrame : Obligations.InstructionsKeepTheirFrame := by
  unfold Obligations.InstructionsKeepTheirFrame
  intro i s t he hf
  obtain h | ⟨r, -, rfl⟩ := exec_cases he
  · exact ⟨regsUnchanged_of_attempt_ok h, unchanged_of_attempt_ok h, fun _ ha => byteAt_of_attempt_ok h ha,
      fun _ hj => stack_of_attempt_ok h hj, fun _ hcls hdrw => pixel_of_attempt_ok h hcls hdrw⟩
  · rw [latch_of_fault_eq hf.symm]
    exact ⟨regsUnchanged_refl _ s, unchanged_refl _ s, fun _ _ => rfl, fun _ _ => rfl, fun _ _ _ => rfl⟩

/-- Settles O42: an instruction's own effect leaves the latch, so where the latch changes the record alone is written. -/
theorem faultingInstructionHasNoEffect : Obligations.FaultingInstructionHasNoEffect := by
  unfold Obligations.FaultingInstructionHasNoEffect
  intro i s t he hf
  obtain h | ⟨r, -, rfl⟩ := exec_cases he
  · exact absurd (fault_of_attempt_ok h) hf
  · exact ⟨unchanged_latch s r, latch_mem s r⟩

end Sys2Proof.Machine
end

section
/-! SUPPORT. The record of an instruction's fault as the tables of R221 and R222 give it, and the faults of the shared
primitives. -/

namespace Sys2Proof.Machine

/-- The record of the fault an attempt raises; none where it raises none. -/
def Attempt.record (a : Attempt) : Option FaultRecord :=
  match a with
  | .ok _ => none
  | .error r => some r

@[simp] theorem record_ok (s : State) : Attempt.record (.ok s) = none := rfl

@[simp] theorem record_error (r : FaultRecord) : Attempt.record (.error r) = some r := rfl

/-- The key code an instruction checks (R226). -/
def checkedKey (i : Instr) (s : State) : Option RegVal :=
  match i with
  | .skp x | .sknp x => some (s.reg x)
  | _ => none

/-- The record of a fault of kind `k`, by R222: the checked address for `AddressFault` alone, the key code for
`KeyIndexFault` alone. -/
def recordOf (i : Instr) (s : State) (k : Fault) : FaultRecord :=
  faultOf i k (if k = .addressFault then checkedAddress i s else none)
    (if k = .keyIndexFault then checkedKey i s else none) s

/-! ### The check of an address (R221) -/

theorem addressCheck_of_none {i : Instr} {s : State} (h : checkedAddress i s = none) (bound : Nat) :
    addressCheck i bound s = none := by
  simp [addressCheck, h]

theorem addressCheck_of_some {i : Instr} {s : State} {a : Nat} (h : checkedAddress i s = some a) (bound : Nat) :
    addressCheck i bound s = if bound ≤ a then some .addressFault else none := by
  simp [addressCheck, h]

theorem address_of_addressCheck {i : Instr} {bound : Nat} {s : State} {k : Fault} (h : addressCheck i bound s = some k) :
    k = .addressFault ∧ ∃ a, checkedAddress i s = some a ∧ bound ≤ a := by
  cases ha : checkedAddress i s with
  | none =>
    rw [addressCheck_of_none ha] at h
    cases h
  | some a =>
    rw [addressCheck_of_some ha] at h
    split at h
    · next hle => exact ⟨(Option.some.inj h).symm, a, rfl, hle⟩
    · cases h

/-- The record an instruction's address check gives. -/
theorem map_recordOf_addressCheck {i : Instr} {s : State} {a : Nat} (h : checkedAddress i s = some a) (bound : Nat) :
    (addressCheck i bound s).map (recordOf i s) =
      if bound ≤ a then some (faultOf i .addressFault (some a) none s) else none := by
  rw [addressCheck_of_some h]
  split
  · simp [recordOf, h]
  · rfl

theorem record_jump {i : Instr} {s : State} {a : Nat} (h : checkedAddress i s = some a) :
    Attempt.record (jump i a s) = (addressCheck i Config.ramSize s).map (recordOf i s) := by
  rw [map_recordOf_addressCheck h, jump]
  split <;> rfl

theorem record_checked {i : Instr} {s : State} {a : Nat} (h : checkedAddress i s = some a) (u : State) :
    Attempt.record (checked i a u s) = (addressCheck i Config.ramSize s).map (recordOf i s) := by
  rw [map_recordOf_addressCheck h, checked]
  split <;> rfl

/-- A skip checks `PC + 2` where its condition holds, and nothing where it does not. -/
theorem record_skip {i : Instr} {s : State} {cond : Bool}
    (h : checkedAddress i s = if cond then some (s.pc.toNat + 2) else none) :
    Attempt.record (skip i cond s) = (addressCheck i Config.ramSize s).map (recordOf i s) := by
  cases cond with
  | false => simp [skip_false, addressCheck_of_none h]
  | true => exact record_jump h

/-- A key skip checks the code first, then skips on the key's state (R201, R202, R226). -/
theorem record_keySkip {i : Instr} {s : State} {x : RegIdx} {wanted : Bool} (hkey : checkedKey i s = some (s.reg x))
    (h : ∀ k : KeyCode, (s.reg x).toNat = k.val →
      checkedAddress i s = if isKeyDown k s == wanted then some (s.pc.toNat + 2) else none) :
    Attempt.record (keySkip i x wanted s) =
      (if Config.keyCount ≤ (s.reg x).toNat then some .keyIndexFault else addressCheck i Config.ramSize s).map
        (recordOf i s) := by
  split
  · next hge => simp [keySkip_of_ge hge, recordOf, hkey]
  · next hlt =>
    have hk : (s.reg x).toNat = (⟨(s.reg x).toNat, by omega⟩ : KeyCode).val := rfl
    rw [keySkip_of_lt _ hk]
    exact record_skip (h _ hk)

/-- The address SKP checks, in terms of the key its register names. -/
theorem checkedAddress_skp {s : State} {x : RegIdx} {k : KeyCode} (hk : (s.reg x).toNat = k.val) :
    checkedAddress (.skp x) s = if isKeyDown k s == true then some (s.pc.toNat + 2) else none := by
  have hdown : (∃ j : KeyCode, j.val = (s.reg x).toNat ∧ j ∈ s.ports.keysDown) ↔ k ∈ s.ports.keysDown := by
    simp [hk, ← Fin.ext_iff]
  simp [checkedAddress, hdown, isKeyDown]

/-- The address SKNP checks, in terms of the key its register names. -/
theorem checkedAddress_sknp {s : State} {x : RegIdx} {k : KeyCode} (hk : (s.reg x).toNat = k.val) :
    checkedAddress (.sknp x) s = if isKeyDown k s == false then some (s.pc.toNat + 2) else none := by
  have hup : (∃ j : KeyCode, j.val = (s.reg x).toNat ∧ j ∉ s.ports.keysDown) ↔ k ∉ s.ports.keysDown := by
    simp [hk, ← Fin.ext_iff]
  simp [checkedAddress, hup, isKeyDown]

end Sys2Proof.Machine
end

section
/-! PROOF. Which fault an instruction raises and what its record holds, over the whole instruction set (R221, R222). -/

namespace Sys2Proof.Machine

/-- An instruction raises the fault of R221's table, with the record of R222. -/
theorem record_attempt {i : Instr} (hi : i.WellFormed) (s : State) :
    Attempt.record (attempt i s) = (raisedFault i s).map (recordOf i s) := by
  cases i with
  | jmp nnn =>
    have hnnn : nnn < Config.ramSize := (fitsAddress_iff nnn).mp hi
    simp only [attempt, jump_of_lt hnnn]
    rfl
  | call nnn =>
    have hnnn : nnn < Config.ramSize := (fitsAddress_iff nnn).mp hi
    by_cases hsp : s.sp.val < Config.stackDepth
    · have hne : s.sp.val ≠ Config.stackDepth := by omega
      simp [attempt_call_of_lt hsp hnnn, raisedFault, hne]
    · have hfull : s.sp.val = Config.stackDepth := by omega
      simp [attempt_call_full hfull, raisedFault, hfull, recordOf]
  | ret =>
    by_cases hsp : s.sp.val = 0
    · simp [attempt_ret_empty hsp, raisedFault, hsp, recordOf]
    · obtain ⟨k, hk⟩ := exists_newest_entry hsp
      simp [attempt_ret_of_pos k hk, raisedFault, hsp]
  | seVxKk | seVxVy | sneVxKk | sneVxVy => exact record_skip (by simp [checkedAddress])
  | skp x => exact record_keySkip rfl fun k hk => checkedAddress_skp hk
  | sknp x => exact record_keySkip rfl fun k hk => checkedAddress_sknp hk
  | jmpV0 nnn => exact record_jump rfl
  | addIVx x | ldBVx x | ldMemVx x | ldVxMem x => exact record_checked rfl _
  | drw x y n =>
    have haddr : checkedAddress (.drw x y n) s = some (effectiveAddress s n) := rfl
    rw [raisedFault, map_recordOf_addressCheck haddr]
    by_cases hle : effectiveAddress s n ≤ Config.ramSize
    · rw [attempt_drw_of_le hle, record_ok, if_neg (Nat.not_le_of_lt (Nat.lt_succ_of_le hle))]
    · have hgt := Nat.lt_of_not_le hle
      rw [attempt_drw_of_gt hgt, record_error, if_pos (Nat.succ_le_of_lt hgt)]
  | _ => rfl

theorem raisedFault_of_attempt_ok {i : Instr} (hi : i.WellFormed) {s t : State} (h : attempt i s = .ok t) :
    raisedFault i s = none := by
  have hrec := record_attempt hi s
  rw [h] at hrec
  exact Option.map_eq_none_iff.mp hrec.symm

theorem raisedFault_of_attempt_error {i : Instr} (hi : i.WellFormed) {s : State} {r : FaultRecord}
    (h : attempt i s = .error r) : ∃ k, raisedFault i s = some k ∧ r = recordOf i s k := by
  have hrec := record_attempt hi s
  rw [h] at hrec
  obtain ⟨k, hk, hr⟩ := Option.map_eq_some_iff.mp hrec.symm
  exact ⟨k, hk, hr.symm⟩

/-- Only the key skips raise `KeyIndexFault` (R221). -/
theorem exists_key_of_raisedFault {i : Instr} {s : State} (h : raisedFault i s = some .keyIndexFault) :
    ∃ x, (i = .skp x ∨ i = .sknp x) ∧ checkedKey i s = some (s.reg x) := by
  cases i with
  | skp x => exact ⟨x, .inl rfl, rfl⟩
  | sknp x => exact ⟨x, .inr rfl, rfl⟩
  | seVxKk | sneVxKk | seVxVy | sneVxVy | jmpV0 | addIVx | ldBVx | ldMemVx | ldVxMem | drw =>
    simp only [raisedFault] at h
    obtain ⟨hk, -⟩ := address_of_addressCheck h
    cases hk
  | _ => simp [raisedFault] at h

/-- Settles O39: an attempt that succeeds raises nothing by the table; one that fails latches the table's record. -/
theorem faultsAreExactlyTheTable : Obligations.FaultsAreExactlyTheTable := by
  unfold Obligations.FaultsAreExactlyTheTable
  intro i s t hi hs he
  obtain h | ⟨r, h, rfl⟩ := exec_cases he
  · have hnone := raisedFault_of_attempt_ok hi h
    rw [fault_of_attempt_ok h, hs, hnone]
    exact ⟨rfl, fun hne => absurd rfl hne⟩
  · obtain ⟨k, hk, rfl⟩ := raisedFault_of_attempt_error hi h
    exact ⟨hk.symm, fun _ => rfl⟩

/-- Settles O40: the latched record is the one R222 gives for the fault of R221's table. -/
theorem faultRecordLocatesFault : Obligations.FaultRecordLocatesFault := by
  unfold Obligations.FaultRecordLocatesFault
  intro i s t r hi hs he hr
  obtain h | ⟨r', h, rfl⟩ := exec_cases he
  · rw [fault_of_attempt_ok h, hs] at hr
    cases hr
  · obtain ⟨k, hk, rfl⟩ := raisedFault_of_attempt_error hi h
    cases hr
    refine ⟨rfl, rfl, fun ha => if_pos ha, fun ha => if_neg ha, fun hkey => ?_, fun hkey => if_neg hkey⟩
    have hkey' : k = .keyIndexFault := hkey
    subst hkey'
    obtain ⟨x, hx, hcode⟩ := exists_key_of_raisedFault hk
    exact ⟨x, hx, hcode⟩

end Sys2Proof.Machine
end

section
/-! SUPPORT. The state after a tick's inputs and timer phase, the step as one equation for each kind of state, and the
cases of a step that answers a next state (R100). -/

namespace Sys2Proof.Machine

/-! ### The inputs and the timer phase -/

theorem takeInputs_of_nil {s : State} (h : s.inputs = []) :
    takeInputs s = { s with ports := freeInput s.draws, draws := s.draws + 1 } := by
  simp [takeInputs, h]

theorem afterTimers_frame (s : State) :
    afterTimers s = { s with
      dt := (afterTimers s).dt, st := (afterTimers s).st, acc := (afterTimers s).acc
      ports := (afterTimers s).ports, inputs := (afterTimers s).inputs, draws := (afterTimers s).draws } := by
  rw [afterTimers, timerPhase_frame, takeInputs_frame]

@[simp] theorem afterTimers_v (s : State) : (afterTimers s).v = s.v := by rw [afterTimers_frame]
@[simp] theorem afterTimers_i (s : State) : (afterTimers s).i = s.i := by rw [afterTimers_frame]
@[simp] theorem afterTimers_pc (s : State) : (afterTimers s).pc = s.pc := by rw [afterTimers_frame]
@[simp] theorem afterTimers_stack (s : State) : (afterTimers s).stack = s.stack := by rw [afterTimers_frame]
@[simp] theorem afterTimers_sp (s : State) : (afterTimers s).sp = s.sp := by rw [afterTimers_frame]
@[simp] theorem afterTimers_haltedOnKey (s : State) : (afterTimers s).haltedOnKey = s.haltedOnKey := by
  rw [afterTimers_frame]
@[simp] theorem afterTimers_mem (s : State) : (afterTimers s).mem = s.mem := by rw [afterTimers_frame]
@[simp] theorem afterTimers_fault (s : State) : (afterTimers s).fault = s.fault := by rw [afterTimers_frame]
@[simp] theorem afterTimers_screen (s : State) : (afterTimers s).screen = s.screen := by rw [afterTimers_frame]
@[simp] theorem afterTimers_params (s : State) : (afterTimers s).params = s.params := by rw [afterTimers_frame]
@[simp] theorem reg_afterTimers (s : State) (x : RegIdx) : (afterTimers s).reg x = s.reg x := by simp [State.reg]

theorem unchanged_afterTimers (s : State) : Unchanged [.dt, .st, .acc, .ports] s (afterTimers s) := by
  intro p hp
  cases p with
  | dt | st | acc | ports => simp at hp
  | _ => simp [Part.same, State.byteAt]

/-- The timer phase as R191 has it, on the elapsed time the tick has taken. -/
theorem afterTimers_timers (s : State) :
    let acc := addMillis s.acc (afterTimers s).ports.elapsed
    let due := periodPassed s.params.framePeriod acc
    (afterTimers s).acc = takePeriod s.params.framePeriod acc ∧
      (afterTimers s).dt = (if due then countDown s.dt else s.dt) ∧
      (afterTimers s).st = (if due then countDown s.st else s.st) := by
  unfold afterTimers takeInputs
  split <;> exact ⟨rfl, rfl, rfl⟩

theorem periodPassed_iff (period acc : Millis) : periodPassed period acc = true ↔ period.val ≤ acc.val :=
  decide_eq_true_iff

/-- A tick takes at most 1 off the delay timer (R190, D7). -/
theorem afterTimers_dt_bounds (s : State) :
    (afterTimers s).dt.toNat ≤ s.dt.toNat ∧ s.dt.toNat ≤ (afterTimers s).dt.toNat + 1 := by
  obtain ⟨-, hdt, -⟩ := afterTimers_timers s
  rw [hdt]
  split
  · rw [countDown_toNat]
    omega
  · omega

/-! ### The state an operation runs in -/

theorem atOperation_eq_setPc (s : State) : atOperation s = (afterTimers s).setPc (s.pc + 2) := rfl

theorem atOperation_pc (s : State) : (atOperation s).pc = s.pc + 2 := rfl

theorem atOperation_pc_toNat {s : State} (h : Fetchable s) : (atOperation s).pc.toNat = s.pc.toNat + 2 := by
  have hle : s.pc.toNat + 2 ≤ 4096 := h
  have hadd : (s.pc + 2).toNat = (s.pc.toNat + 2) % 65536 := BitVec.toNat_add s.pc 2
  rw [atOperation_pc, hadd]
  omega

theorem unchanged_atOperation (s : State) : Unchanged [.dt, .st, .acc, .ports, .pc] s (atOperation s) :=
  unchanged_trans (unchanged_afterTimers s) (unchanged_setPc _ _)

theorem running_atOperation {s : State} (h : Running s) : Running (atOperation s) := by
  obtain ⟨hf, hk⟩ := h
  exact ⟨(afterTimers_fault s).trans hf, (afterTimers_haltedOnKey s).trans hk⟩

/-! ### A step, by the state it starts in (R100, R103, R105) -/

theorem step_of_faulted {s : State} (h : s.fault ≠ none) : step s = .next s := by
  obtain ⟨-, hs⟩ | ⟨hf, -⟩ | ⟨hf, -⟩ | ⟨hf, -⟩ := step_cases s
  · exact hs
  all_goals exact absurd hf h

theorem step_of_waiting {s : State} {x : RegIdx} (hf : s.fault = none) (hk : s.haltedOnKey = some x) :
    step s = .next (keyWaitStep x (afterTimers s)) := by
  obtain ⟨h, -⟩ | ⟨-, y, hy, hs⟩ | ⟨-, h, -⟩ | ⟨-, h, -⟩ := step_cases s
  · exact absurd hf h
  · cases hk.symm.trans hy
    exact hs
  all_goals cases hk.symm.trans h

theorem step_of_not_fetchable {s : State} (hr : Running s) (hpc : Config.ramSize < s.pc.toNat + 2) :
    step s = .next (latch (fetchFault (afterTimers s)) (afterTimers s)) := by
  obtain ⟨hf, hk⟩ := hr
  obtain ⟨h, -⟩ | ⟨-, y, hy, -⟩ | ⟨-, -, -, hs⟩ | ⟨-, -, hle, -⟩ := step_cases s
  · exact absurd hf h
  · cases hk.symm.trans hy
  · exact hs
  · exact absurd hle (Nat.not_le_of_lt hpc)

theorem step_of_fetchable {s : State} (hr : Running s) (hpc : Fetchable s) :
    step s = runWord (wordAtPc s) (atOperation s) := by
  obtain ⟨hf, hk⟩ := hr
  obtain ⟨h, -⟩ | ⟨-, y, hy, -⟩ | ⟨-, -, hgt, -⟩ | ⟨-, -, -, hs⟩ := step_cases s
  · exact absurd hf h
  · cases hk.symm.trans hy
  · exact absurd hpc (Nat.not_le_of_lt hgt)
  · exact hs

theorem step_of_instr {s : State} {i : Instr} (hr : Running s) (hpc : Fetchable s)
    (hd : decode (wordAtPc s) = .instr i) : step s = exec i (atOperation s) := by
  rw [step_of_fetchable hr hpc, runWord_instr hd]

theorem step_of_unknown {s : State} {w : Word} (hr : Running s) (hpc : Fetchable s)
    (hd : decode (wordAtPc s) = .unknown w) :
    step s = .next (latch (unknownFault w (atOperation s)) (atOperation s)) := by
  rw [step_of_fetchable hr hpc, runWord_unknown hd]

/-- The kinds of state a step starts in: faulted, waiting, and Running with no word, an instruction or an `Unknown`
word at `PC`. -/
inductive StepKind (s : State) : Prop
  | faulted (h : s.fault ≠ none)
  | waiting (x : RegIdx) (hf : s.fault = none) (hk : s.haltedOnKey = some x)
  | noWord (hr : Running s) (hpc : Config.ramSize < s.pc.toNat + 2)
  | instr (i : Instr) (hr : Running s) (hpc : Fetchable s) (hd : decode (wordAtPc s) = .instr i)
  | unknown (w : Word) (hr : Running s) (hpc : Fetchable s) (hd : decode (wordAtPc s) = .unknown w)

theorem stepKind (s : State) : StepKind s := by
  by_cases hf : s.fault = none
  · cases hk : s.haltedOnKey with
    | some x => exact .waiting x hf hk
    | none =>
      by_cases hpc : Fetchable s
      · cases hd : decode (wordAtPc s) with
        | instr i => exact .instr i ⟨hf, hk⟩ hpc hd
        | unknown w => exact .unknown w ⟨hf, hk⟩ hpc hd
      · exact .noWord ⟨hf, hk⟩ (Nat.lt_of_not_le hpc)
  · exact .faulted hf

/-! ### What a step may change -/

/-- Whether it completes or faults, an instruction changes at most the parts it may write and the latch. -/
theorem unchanged_exec {i : Instr} {s t : State} (h : exec i s = .next t) :
    Unchanged (.fault :: writtenParts i) s t := by
  obtain h | ⟨r, -, rfl⟩ := exec_cases h
  · exact unchanged_mono (List.subset_cons_self _ _) (unchanged_of_attempt_ok h)
  · exact unchanged_mono (List.cons_subset_cons _ (List.nil_subset _)) (unchanged_latch s r)

/-- The waiting tick writes the waiting register and `halted_on_key` alone (R204). -/
theorem unchanged_keyWaitStep (x : RegIdx) (s : State) : Unchanged [.regs, .halted] s (keyWaitStep x s) := by
  unfold keyWaitStep
  split
  · exact unchanged_trans (unchanged_setReg s x _) (unchanged_setHalted _ none)
  · exact unchanged_refl _ s

end Sys2Proof.Machine
end

section
/-! PROOF. The tick of 40_cycle.md: fetch, decode, the faulted block, the timer phase and the waiting tick. -/

namespace Sys2Proof.Machine

/-- Settles O31: the operation runs in the state after the timer phase with `PC` past the word, which does not wrap where
the word lies in memory. -/
theorem stepRunsDecodedInstruction : Obligations.StepRunsDecodedInstruction := by
  unfold Obligations.StepRunsDecodedInstruction
  exact fun s i hr hpc hd => ⟨step_of_instr hr hpc hd, atOperation_pc_toNat hpc, unchanged_atOperation s⟩

/-- Settles O32: the record holds the word and, with `PC` past it, `PC - 2`. -/
theorem unknownWordAlwaysFaults : Obligations.UnknownWordAlwaysFaults := by
  unfold Obligations.UnknownWordAlwaysFaults
  intro s w hr hpc hd
  refine ⟨eq_of_decode_unknown hd, unknownFault w (atOperation s), rfl, ?_, rfl, rfl, rfl, step_of_unknown hr hpc hd⟩
  exact BitVec.add_sub_cancel s.pc 2

/-- Settles O33, by the two branches of the fetch's bound. -/
theorem fetchReadsWordAtPc : Obligations.FetchReadsWordAtPc := by
  unfold Obligations.FetchReadsWordAtPc
  intro s
  refine ⟨fun h => ?_, fun h => ?_⟩
  · exact ⟨_, _, fetch_of_le h, assembleWord_toNat _ _, atOperation_pc_toNat h, unchanged_setPc s _⟩
  · exact ⟨fetchFault s, rfl, rfl, rfl, fetch_of_gt h⟩

/-- Settles O34: the fetch fault is latched in the state after the timer phase, which keeps `PC`. -/
theorem fetchBeyondMemoryFaults : Obligations.FetchBeyondMemoryFaults := by
  unfold Obligations.FetchBeyondMemoryFaults
  intro s hr hpc
  have hpc' : (afterTimers s).pc = s.pc := afterTimers_pc s
  refine ⟨fetchFault (afterTimers s), rfl, hpc', ?_, rfl, rfl, step_of_not_fetchable hr hpc, hpc'⟩
  rw [fetchFault, hpc', instrBytes_eq]

/-- Settles O35, by induction on the number of steps. -/
theorem faultedBlockIsFrozen : Obligations.FaultedBlockIsFrozen := by
  unfold Obligations.FaultedBlockIsFrozen
  intro s n h
  induction n with
  | zero => rfl
  | succ n ih =>
    have hs : core.step s = .next s := step_of_faulted h
    simp only [Host.Core.run, hs, ih]

/-- Settles O36: the taken elapsed time decides whether the period has passed, which the accumulator and both timers
follow. -/
theorem timerPhaseFollowsAccumulator : Obligations.TimerPhaseFollowsAccumulator := by
  unfold Obligations.TimerPhaseFollowsAccumulator
  intro s
  obtain ⟨hacc, hdt, hst⟩ := afterTimers_timers s
  refine ⟨fun inp rest h => ?_, fun h => ?_, unchanged_afterTimers s, fun h => ?_, fun h => ?_⟩
  · rw [afterTimers, takeInputs_of_cons h]
    exact ⟨rfl, rfl, rfl⟩
  · rw [afterTimers, takeInputs_of_nil h]
    exact ⟨rfl, h, rfl⟩
  · have hnot : ¬ s.params.framePeriod.val ≤ (addMillis s.acc (afterTimers s).ports.elapsed).val := not_le_of_gt h
    rw [hacc, hdt, hst, takePeriod_val, if_neg hnot, if_neg (mt (periodPassed_iff _ _).mp hnot),
      if_neg (mt (periodPassed_iff _ _).mp hnot)]
    exact ⟨rfl, rfl, rfl⟩
  · have hdue : s.params.framePeriod.val ≤ (addMillis s.acc (afterTimers s).ports.elapsed).val := h
    rw [hacc, hdt, hst, takePeriod_val, if_pos hdue, if_pos ((periodPassed_iff _ _).mpr hdue),
      if_pos ((periodPassed_iff _ _).mpr hdue)]
    exact ⟨rfl, countDown_toNat s.dt, countDown_toNat s.st⟩

/-- Settles O27: the waiting tick asks the port once and writes the waiting register and `halted_on_key` alone. -/
theorem waitingTickPollsOnce : Obligations.WaitingTickPollsOnce := by
  unfold Obligations.WaitingTickPollsOnce
  intro s x hf hk
  have hs := step_of_waiting hf hk
  refine ⟨fun k hkey => ?_, fun hkey => ?_⟩
  · have hstep : keyWaitStep x (afterTimers s) =
        ((afterTimers s).setReg x (BitVec.ofNat Config.regWidth k.val)).setHalted none := by
      simp [keyWaitStep, polledKey, hkey]
    refine ⟨_, hs, ?_, ?_, ?_, ?_, unchanged_keyWaitStep x _⟩
    · have hk16 : k.val < 16 := k.isLt
      have hfits : (BitVec.ofNat 8 k.val).toNat = k.val :=
        (BitVec.toNat_ofNat _ _).trans (Nat.mod_eq_of_lt (by omega))
      rw [hstep, reg_setHalted, reg_setReg_same]
      exact hfits
    · rw [hstep, setHalted_haltedOnKey]
    · intro y hy
      rw [hstep, reg_setHalted, reg_setReg_other _ (List.ne_of_not_mem_cons hy), reg_afterTimers]
    · rw [hstep, setHalted_pc, setReg_pc, afterTimers_pc]
  · rw [hs, keyWaitStep, polledKey, hkey]

end Sys2Proof.Machine
end

section
/-! PROOF. What holds of every step: it answers a next state, keeps the parameters, and raises the delay timer by `Fx15`
alone. -/

namespace Sys2Proof.Machine

/-- Settles O38: every instruction completes its attempt, so no arm is refused. -/
theorem everyStepAnswersNextState : Obligations.EveryStepAnswersNextState := by
  unfold Obligations.EveryStepAnswersNextState
  intro s
  cases stepKind s with
  | faulted h => exact ⟨_, step_of_faulted h⟩
  | waiting x hf hk => exact ⟨_, step_of_waiting hf hk⟩
  | noWord hr hpc => exact ⟨_, step_of_not_fetchable hr hpc⟩
  | instr i hr hpc hd => exact ⟨_, (step_of_instr hr hpc hd).trans (exec_eq_complete i _)⟩
  | unknown w hr hpc hd => exact ⟨_, step_of_unknown hr hpc hd⟩

theorem params_notMem_parts (i : Instr) : .params ∉ .fault :: writtenParts i := by
  cases i <;> simp [writtenParts]

/-- Settles O54: the parameters are no part that an instruction, the timer phase or the waiting tick may write. -/
theorem everyStepKeepsParameters : Obligations.EveryStepKeepsParameters := by
  unfold Obligations.EveryStepKeepsParameters
  intro s t h
  cases stepKind s with
  | faulted hf =>
    cases (step_of_faulted hf).symm.trans h
    rfl
  | waiting x hf hk =>
    cases (step_of_waiting hf hk).symm.trans h
    exact (unchanged_keyWaitStep x _ .params (by decide)).trans (afterTimers_params s)
  | noWord hr hpc =>
    cases (step_of_not_fetchable hr hpc).symm.trans h
    exact afterTimers_params s
  | instr i hr hpc hd =>
    have hexec := (step_of_instr hr hpc hd).symm.trans h
    exact (unchanged_exec hexec .params (params_notMem_parts i)).trans (afterTimers_params s)
  | unknown w hr hpc hd =>
    cases (step_of_unknown hr hpc hd).symm.trans h
    exact afterTimers_params s

/-- Only LD DT, Vx writes the delay timer. -/
theorem dt_of_exec {i : Instr} {s t : State} (h : exec i s = .next t) :
    t.dt = s.dt ∨ ∃ x, i = .ldDtVx x ∧ t.dt = s.reg x := by
  cases i with
  | ldDtVx x =>
    rw [exec_ldDtVx] at h
    cases h
    exact .inr ⟨x, rfl, rfl⟩
  | _ => exact .inl (unchanged_exec h .dt (by simp [writtenParts]))

/-- Settles O37: but for `Fx15` the step leaves the delay timer as the timer phase has left it. -/
theorem delayTimerRisesOnlyByItsWrite : Obligations.DelayTimerRisesOnlyByItsWrite := by
  unfold Obligations.DelayTimerRisesOnlyByItsWrite
  intro s t h
  have hbounds := afterTimers_dt_bounds s
  cases stepKind s with
  | faulted hf =>
    cases (step_of_faulted hf).symm.trans h
    exact .inl ⟨le_refl _, Nat.le_succ _⟩
  | waiting x hf hk =>
    cases (step_of_waiting hf hk).symm.trans h
    have hdt : (keyWaitStep x (afterTimers s)).dt = (afterTimers s).dt :=
      unchanged_keyWaitStep x _ .dt (by decide)
    rw [hdt]
    exact .inl hbounds
  | noWord hr hpc =>
    cases (step_of_not_fetchable hr hpc).symm.trans h
    exact .inl hbounds
  | instr i hr hpc hd =>
    obtain hdt | ⟨x, rfl, hdt⟩ := dt_of_exec ((step_of_instr hr hpc hd).symm.trans h)
    · rw [hdt]
      exact .inl hbounds
    · exact .inr ⟨hr, hpc, x, hd, hdt.trans (reg_afterTimers s x)⟩
  | unknown w hr hpc hd =>
    cases (step_of_unknown hr hpc hd).symm.trans h
    exact .inl hbounds

end Sys2Proof.Machine
end

section
/-! SUPPORT. The parts of the invariant one by one: what a completing instruction leaves of memory, `PC`, `I` and the
stack (R25, R26, R27, R50), and that the records of R222 are well formed. -/

namespace Sys2Proof.Machine

/-! ### A completing instruction -/

/-- A completing instruction leaves the list of cells, or has stored a block that ends inside memory (R54). -/
theorem mem_of_attempt_ok {i : Instr} {s t : State} (h : attempt i s = .ok t) :
    t.mem = s.mem ∨ ∃ a bs, a + bs.length ≤ Config.ramSize ∧ t.mem = s.mem.writeBytes a bs := by
  cases i with
  | ldBVx x =>
    obtain ⟨hlt, rfl⟩ := checked_ok h
    exact .inr ⟨_, _, hlt, rfl⟩
  | ldMemVx x =>
    obtain ⟨hlt, rfl⟩ := checked_ok h
    refine .inr ⟨_, _, ?_, rfl⟩
    rw [regsUpTo_length]
    exact hlt
  | addIVx x | ldVxMem x =>
    obtain ⟨-, rfl⟩ := checked_ok h
    exact .inl rfl
  | ret =>
    obtain ⟨k, -, rfl⟩ := attempt_ret_ok h
    exact .inl rfl
  | call nnn =>
    obtain ⟨hlt, -, rfl⟩ := attempt_call_ok h
    exact .inl rfl
  | jmp nnn | jmpV0 nnn =>
    obtain ⟨-, rfl⟩ := jump_ok h
    exact .inl rfl
  | seVxKk x y | sneVxKk x y | seVxVy x y | sneVxVy x y =>
    obtain ⟨-, rfl⟩ | ⟨-, -, rfl⟩ := skip_ok h <;> exact .inl rfl
  | skp x | sknp x =>
    obtain ⟨k, -, hskip⟩ := keySkip_ok h
    obtain ⟨-, rfl⟩ | ⟨-, -, rfl⟩ := skip_ok hskip <;> exact .inl rfl
  | drw x y n =>
    obtain ⟨-, rfl⟩ := attempt_drw_ok h
    exact .inl rfl
  | _ =>
    cases h
    exact .inl rfl

/-- A jump's target is below `RAM_SIZE`, so its 16 bits hold it as it is. -/
theorem pcVal_ofNat_toNat {a : Nat} (h : a < Config.ramSize) : (BitVec.ofNat Config.pcWidth a).toNat = a :=
  (BitVec.toNat_ofNat a 16).trans (Nat.mod_eq_of_lt (Nat.lt_trans h (by decide)))

theorem setPc_pc_le {a : Nat} (h : a < Config.ramSize) (s : State) :
    (s.setPc (BitVec.ofNat Config.pcWidth a)).pc.toNat ≤ Config.ramSize :=
  (pcVal_ofNat_toNat h).trans_le (Nat.le_of_lt h)

theorem pc_le_of_skip_ok {i : Instr} {cond : Bool} {s t : State} (h : skip i cond s = .ok t)
    (hpc : s.pc.toNat ≤ Config.ramSize) : t.pc.toNat ≤ Config.ramSize := by
  obtain ⟨-, rfl⟩ | ⟨-, hlt, rfl⟩ := skip_ok h
  · exact hpc
  · exact setPc_pc_le hlt s

/-- Every target but RET's is checked, and RET pops a return address (R25, R107, D12). -/
theorem pc_le_of_attempt_ok {i : Instr} {s t : State} (h : attempt i s = .ok t) (hpc : s.pc.toNat ≤ Config.ramSize)
    (hstack : ∀ k : Fin Config.stackDepth, s.stack[k].toNat ≤ Config.ramSize) : t.pc.toNat ≤ Config.ramSize := by
  have hkeep (hw : .pc ∉ writtenParts i) : t.pc.toNat ≤ Config.ramSize := by
    rw [show t.pc = s.pc from unchanged_of_attempt_ok h .pc hw]
    exact hpc
  cases i with
  | ret =>
    obtain ⟨k, -, rfl⟩ := attempt_ret_ok h
    exact hstack k
  | call nnn =>
    obtain ⟨hlt, hnnn, rfl⟩ := attempt_call_ok h
    exact setPc_pc_le hnnn _
  | jmp nnn | jmpV0 nnn =>
    obtain ⟨hlt, rfl⟩ := jump_ok h
    exact setPc_pc_le hlt s
  | seVxKk x y | sneVxKk x y | seVxVy x y | sneVxVy x y => exact pc_le_of_skip_ok h hpc
  | skp x | sknp x =>
    obtain ⟨k, -, hskip⟩ := keySkip_ok h
    exact pc_le_of_skip_ok hskip hpc
  | _ => exact hkeep (by simp [writtenParts])

theorem setI_i_lt {a : Nat} (h : a < Config.ramSize) (s : State) :
    (s.setI (BitVec.ofNat Config.iWidth a)).i.toNat < Config.ramSize :=
  (pcVal_ofNat_toNat h).trans_lt h

/-- `I` takes a 12-bit address, a checked sum, or 5 times a byte (R26, R170, R171, R172). -/
theorem i_lt_of_attempt_ok {i : Instr} (hi : i.WellFormed) {s t : State} (h : attempt i s = .ok t)
    (hlt : s.i.toNat < Config.ramSize) : t.i.toNat < Config.ramSize := by
  have hkeep (hw : .i ∉ writtenParts i) : t.i.toNat < Config.ramSize := by
    rw [show t.i = s.i from unchanged_of_attempt_ok h .i hw]
    exact hlt
  cases i with
  | ldINnn nnn =>
    cases h
    exact setI_i_lt ((fitsAddress_iff nnn).mp hi) s
  | addIVx x =>
    obtain ⟨hsum, rfl⟩ := checked_ok h
    exact setI_i_lt hsum s
  | ldFVx x =>
    cases h
    have hx := reg_toNat_lt s x
    exact setI_i_lt (show 0 + (s.reg x).toNat * 5 < 4096 by omega) s
  | _ => exact hkeep (by simp [writtenParts])

/-- CALL pushes the `PC` it sees; every other entry stays (R27, R122). -/
theorem stack_le_of_attempt_ok {i : Instr} {s t : State} (h : attempt i s = .ok t)
    (hpc : s.pc.toNat ≤ Config.ramSize) (hstack : ∀ k : Fin Config.stackDepth, s.stack[k].toNat ≤ Config.ramSize)
    (j : Fin Config.stackDepth) : t.stack[j].toNat ≤ Config.ramSize := by
  by_cases hj : j.val = s.sp.val ∧ ∃ nnn, i = .call nnn
  · obtain ⟨hjsp, nnn, rfl⟩ := hj
    obtain ⟨hlt, -, rfl⟩ := attempt_call_ok h
    simpa [hjsp] using hpc
  · rw [stack_of_attempt_ok h hj]
    exact hstack j

/-! ### The records -/

/-- What R222 makes the record of a fault of kind `k` hold is at or above the bound that the check compares it with. -/
def CheckFailed (i : Instr) (s : State) (k : Fault) : Prop :=
  (k = .addressFault → ∃ a, checkedAddress i s = some a ∧ Config.ramSize ≤ a) ∧
    (k = .keyIndexFault → ∃ b, checkedKey i s = some b ∧ Config.keyCount ≤ b.toNat)

theorem checkFailed_of_addressCheck {i : Instr} {bound : Nat} (hb : Config.ramSize ≤ bound) {s : State} {k : Fault}
    (h : addressCheck i bound s = some k) : CheckFailed i s k := by
  obtain ⟨rfl, a, ha, hle⟩ := address_of_addressCheck h
  exact ⟨fun _ => ⟨a, ha, hb.trans hle⟩, nofun⟩

theorem checkFailed_of_raisedFault {i : Instr} {s : State} {k : Fault} (h : raisedFault i s = some k) :
    CheckFailed i s k := by
  cases i with
  | seVxKk | sneVxKk | seVxVy | sneVxVy | jmpV0 | addIVx | ldBVx | ldMemVx | ldVxMem =>
    exact checkFailed_of_addressCheck (le_refl _) h
  | drw => exact checkFailed_of_addressCheck (Nat.le_succ _) h
  | skp x | sknp x =>
    simp only [raisedFault] at h
    split at h
    · next hge =>
      cases h
      exact ⟨nofun, fun _ => ⟨_, rfl, hge⟩⟩
    · exact checkFailed_of_addressCheck (le_refl _) h
  | ret | call =>
    simp only [raisedFault] at h
    split at h <;> cases h
    exact ⟨nofun, nofun⟩
  | _ => cases h

theorem recordOf_wf {i : Instr} {s : State} {k : Fault} (h : raisedFault i s = some k) : (recordOf i s k).wf := by
  obtain ⟨haddr, hkey⟩ := checkFailed_of_raisedFault h
  by_cases hk : k = .addressFault
  · obtain ⟨a, ha, hle⟩ := haddr hk
    subst hk
    simp [FaultRecord.wf, recordOf, faultOf, ha, hle]
  · by_cases hk' : k = .keyIndexFault
    · obtain ⟨b, hb, hle⟩ := hkey hk'
      subst hk'
      simp [FaultRecord.wf, recordOf, faultOf, hb, hle]
    · simp [FaultRecord.wf, recordOf, faultOf, hk, hk']

theorem fetchFault_wf {s : State} (h : Config.ramSize < s.pc.toNat + 2) : (fetchFault s).wf := by
  have hle : Config.ramSize ≤ s.pc.toNat + 2 := Nat.le_of_lt h
  simp [FaultRecord.wf, fetchFault, hle]

theorem unknownFault_wf (w : Word) (s : State) : (unknownFault w s).wf := by
  simp [FaultRecord.wf, unknownFault]

end Sys2Proof.Machine
end

section
/-! PROOF. The invariant holds at reset and every step keeps it. -/

namespace Sys2Proof.Machine

theorem inv_latch {s : State} {r : FaultRecord} (h : s.Inv) (hk : s.haltedOnKey = none) (hr : r.wf) :
    (latch r s).Inv := by
  obtain ⟨hmem, hpc, hi, hstack, -, -⟩ := h
  exact ⟨hmem, hpc, hi, hstack, fun _ => hk, fun r' hr' => Option.some.inj hr' ▸ hr⟩

theorem inv_afterTimers {s : State} (h : s.Inv) : (afterTimers s).Inv := by
  simpa [State.Inv] using h

theorem inv_atOperation {s : State} (h : s.Inv) (hpc : Fetchable s) : (atOperation s).Inv := by
  obtain ⟨hmem, -, hi, hstack, hk, hr⟩ := inv_afterTimers h
  exact ⟨hmem, (atOperation_pc_toNat hpc).trans_le hpc, hi, hstack, hk, hr⟩

theorem inv_keyWaitStep {s : State} (h : s.Inv) (hf : s.fault = none) (x : RegIdx) : (keyWaitStep x s).Inv := by
  obtain ⟨hmem, hpc, hi, hstack, -, hr⟩ := h
  unfold keyWaitStep
  split
  · exact ⟨hmem, hpc, hi, hstack, fun _ => rfl, hr⟩
  · exact ⟨hmem, hpc, hi, hstack, fun hne => absurd hf hne, hr⟩

theorem inv_of_attempt_ok {i : Instr} (hi : i.WellFormed) {s t : State} (hf : s.fault = none) (h : s.Inv)
    (ha : attempt i s = .ok t) : t.Inv := by
  obtain ⟨hmem, hpc, hilt, hstack, -, -⟩ := h
  have hft : t.fault = none := (fault_of_attempt_ok ha).trans hf
  refine ⟨?_, pc_le_of_attempt_ok ha hpc hstack, i_lt_of_attempt_ok hi ha hilt, stack_le_of_attempt_ok ha hpc hstack,
    fun hne => absurd hft hne, fun r hr => by cases hft.symm.trans hr⟩
  obtain hm | ⟨a, bs, hle, hm⟩ := mem_of_attempt_ok ha
  · rw [hm]
    exact hmem
  · rw [hm]
    exact Memory.writeBytes_wf hmem bs hle

theorem inv_of_exec {i : Instr} (hi : i.WellFormed) {s t : State} (hr : Running s) (h : s.Inv)
    (he : exec i s = .next t) : t.Inv := by
  obtain ⟨hf, hk⟩ := hr
  obtain ha | ⟨r, ha, rfl⟩ := exec_cases he
  · exact inv_of_attempt_ok hi hf h ha
  · obtain ⟨k, hraised, rfl⟩ := raisedFault_of_attempt_error hi ha
    exact inv_latch h hk (recordOf_wf hraised)

/-- Settles O43: memory is empty, the registers are 0, and no fault is latched. -/
theorem resetMeetsInvariant : Obligations.ResetMeetsInvariant := by
  unfold Obligations.ResetMeetsInvariant
  exact ⟨Memory.wf_nil, by decide, by decide, by decide, fun _ => rfl, fun r hr => by cases hr⟩

/-- Settles O44: by the kind of the state, its step is a latch, the waiting tick or a well-formed instruction, and each
keeps the invariant. -/
theorem everyStepKeepsInvariant : Obligations.EveryStepKeepsInvariant := by
  unfold Obligations.EveryStepKeepsInvariant
  intro s t hinv h
  cases stepKind s with
  | faulted hf =>
    cases (step_of_faulted hf).symm.trans h
    exact hinv
  | waiting x hf hk =>
    cases (step_of_waiting hf hk).symm.trans h
    exact inv_keyWaitStep (inv_afterTimers hinv) ((afterTimers_fault s).trans hf) x
  | noWord hr hpc =>
    cases (step_of_not_fetchable hr hpc).symm.trans h
    obtain ⟨-, hk⟩ := hr
    exact inv_latch (inv_afterTimers hinv) ((afterTimers_haltedOnKey s).trans hk)
      (fetchFault_wf (by rw [afterTimers_pc]; exact hpc))
  | instr i hr hpc hd =>
    exact inv_of_exec (wellFormed_of_decode hd) (running_atOperation hr) (inv_atOperation hinv hpc)
      ((step_of_instr hr hpc hd).symm.trans h)
  | unknown w hr hpc hd =>
    cases (step_of_unknown hr hpc hd).symm.trans h
    obtain ⟨-, hk⟩ := running_atOperation hr
    exact inv_latch (inv_atOperation hinv hpc) hk (unknownFault_wf w _)

end Sys2Proof.Machine
end

section
/-! SUPPORT. A state with other contents in ST and in the stack: what no instruction reads commutes with the primitives
(R27, R34, R195). -/

namespace Sys2Proof.Machine

/-- The same state with other contents in `ST` and in the stack entries. -/
def State.withUnread (s : State) (b : TimerVal) (k : Vector StackEntry Config.stackDepth) : State :=
  { s with st := b, stack := k }

/-- The entries in use are the same (R27). -/
def UsedEntriesAgree (s : State) (k : Vector StackEntry Config.stackDepth) : Prop :=
  ∀ j : Fin Config.stackDepth, j.val < s.sp.val → k[j] = s.stack[j]

/-- Where `s` leads to `t`, `s` with `b` and `k` in `ST` and the stack leads to `t` with other contents there: the same
ones as `t` where `s` had the same ones, and the same entries in use. -/
def Mirrors (s : State) (b : TimerVal) (k : Vector StackEntry Config.stackDepth) (t : State) (o : Result) : Prop :=
  ∃ b' k', o = .next (t.withUnread b' k') ∧ UsedEntriesAgree t k' ∧
    (b = s.st → b' = t.st) ∧ (k = s.stack → k' = t.stack)

variable (b : TimerVal) (k : Vector StackEntry Config.stackDepth)

/-! ### The primitives read neither -/

theorem jump_withUnread (i : Instr) (a : Nat) (s : State) :
    jump i a (s.withUnread b k) = (jump i a s).map (·.withUnread b k) := by
  unfold jump
  split <;> rfl

theorem skip_withUnread (i : Instr) (cond : Bool) (s : State) :
    skip i cond (s.withUnread b k) = (skip i cond s).map (·.withUnread b k) := by
  cases cond with
  | false => rfl
  | true => exact jump_withUnread b k i _ s

theorem checked_withUnread (i : Instr) (last : Nat) {u u' : State} (hu : u' = u.withUnread b k) (s : State) :
    checked i last u' (s.withUnread b k) = (checked i last u s).map (·.withUnread b k) := by
  rw [hu]
  unfold checked
  split <;> rfl

theorem keySkip_withUnread (i : Instr) (x : RegIdx) (wanted : Bool) (s : State) :
    keySkip i x wanted (s.withUnread b k) = (keySkip i x wanted s).map (·.withUnread b k) := by
  by_cases h : Config.keyCount ≤ (s.reg x).toNat
  · rw [keySkip_of_ge h, keySkip_of_ge (s := s.withUnread b k) h]
    rfl
  · have hk : (s.reg x).toNat = (⟨(s.reg x).toNat, by omega⟩ : KeyCode).val := rfl
    rw [keySkip_of_lt _ hk, keySkip_of_lt (s := s.withUnread b k) _ hk]
    exact skip_withUnread b k i _ s

/-- An instruction that writes neither `ST` nor the stack does not read them. -/
theorem attempt_withUnread {i : Instr} (hst : .st ∉ writtenParts i) (hstack : .stack ∉ writtenParts i) (s : State) :
    attempt i (s.withUnread b k) = (attempt i s).map (·.withUnread b k) := by
  cases i with
  | jmp | jmpV0 => exact jump_withUnread b k _ _ s
  | seVxKk | sneVxKk | seVxVy | sneVxVy => exact skip_withUnread b k _ _ s
  | skp | sknp => exact keySkip_withUnread b k _ _ _ s
  | addIVx | ldBVx | ldMemVx | ldVxMem => exact checked_withUnread b k _ _ (by rfl) s
  | drw x y n =>
    by_cases hle : effectiveAddress s n ≤ Config.ramSize
    · rw [attempt_drw_of_le hle, attempt_drw_of_le (s := s.withUnread b k) hle]
      rfl
    · have hgt := Nat.lt_of_not_le hle
      rw [attempt_drw_of_gt hgt, attempt_drw_of_gt (s := s.withUnread b k) hgt]
      rfl
  | ret | call | ldStVx => simp [writtenParts] at hst hstack
  | _ => rfl

theorem complete_withUnread {a : Attempt} {s t : State} (h : complete s a = .next t) :
    complete (s.withUnread b k) (a.map (·.withUnread b k)) = .next (t.withUnread b k) := by
  obtain rfl | ⟨r, rfl, rfl⟩ := complete_cases h <;> rfl

theorem takeInputs_withUnread (s : State) : takeInputs (s.withUnread b k) = (takeInputs s).withUnread b k := by
  cases h : s.inputs with
  | nil => rw [takeInputs_of_nil h, takeInputs_of_nil (s := s.withUnread b k) h]; rfl
  | cons inp rest => rw [takeInputs_of_cons h, takeInputs_of_cons (s := s.withUnread b k) h]; rfl

/-- The timer phase counts `ST` down by itself and leaves the stack. -/
theorem afterTimers_withUnread (s : State) :
    ∃ b', afterTimers (s.withUnread b k) = (afterTimers s).withUnread b' k ∧ (b = s.st → b' = (afterTimers s).st) := by
  refine ⟨(timerPhase ((takeInputs s).withUnread b k)).st, ?_, ?_⟩
  · rw [afterTimers, takeInputs_withUnread]
    rfl
  · rintro rfl
    have hst : (takeInputs s).st = s.st := by rw [takeInputs_frame]
    rw [← hst]
    rfl

theorem keyWaitStep_withUnread (x : RegIdx) (s : State) :
    keyWaitStep x (s.withUnread b k) = (keyWaitStep x s).withUnread b k := by
  have hpolled : polledKey (s.withUnread b k) = polledKey s := rfl
  unfold keyWaitStep
  rw [hpolled]
  split <;> rfl

end Sys2Proof.Machine
end

section
/-! PROOF. What no instruction can observe: `ST`, and the stack entries at or above `SP` (R27, R34, R195). -/

namespace Sys2Proof.Machine

/-! ### One instruction -/

/-- An effect that leaves `ST`, the stack and `SP`. -/
theorem mirrors_of_kept {s t : State} {b : TimerVal} {k : Vector StackEntry Config.stackDepth} {o : Result}
    (hk : UsedEntriesAgree s k) (ho : o = .next (t.withUnread b k)) (hst : t.st = s.st) (hstack : t.stack = s.stack)
    (hsp : t.sp = s.sp) : Mirrors s b k t o := by
  refine ⟨b, k, ho, fun j hj => ?_, fun hb => hb.trans hst.symm, fun he => he.trans hstack.symm⟩
  rw [hstack]
  exact hk j (hsp ▸ hj)

theorem mirrors_exec_of_not_written {i : Instr} (hst : .st ∉ writtenParts i) (hstack : .stack ∉ writtenParts i)
    {s t : State} {b : TimerVal} {k : Vector StackEntry Config.stackDepth} (hk : UsedEntriesAgree s k)
    (h : exec i s = .next t) : Mirrors s b k t (exec i (s.withUnread b k)) := by
  obtain ⟨hstack', hsp⟩ := unchanged_exec h .stack (by simpa using hstack)
  have hst' : t.st = s.st := unchanged_exec h .st (by simpa using hst)
  rw [exec_eq_complete] at h
  refine mirrors_of_kept hk ?_ hst' hstack' hsp
  rw [exec_eq_complete, attempt_withUnread b k hst hstack]
  exact complete_withUnread b k h

/-- CALL writes the entry at `SP`, which is in use after it. -/
theorem mirrors_exec_call {nnn : Nat} {s t : State} {b : TimerVal} {k : Vector StackEntry Config.stackDepth}
    (hk : UsedEntriesAgree s k) (h : exec (.call nnn) s = .next t) :
    Mirrors s b k t (exec (.call nnn) (s.withUnread b k)) := by
  by_cases hsp : s.sp.val < Config.stackDepth
  · by_cases hnnn : nnn < Config.ramSize
    · cases (exec_of_attempt_ok (attempt_call_of_lt hsp hnnn)).symm.trans h
      refine ⟨b, k.set s.sp.val s.pc hsp, exec_of_attempt_ok (attempt_call_of_lt (s := s.withUnread b k) hsp hnnn),
        fun j hj => ?_, id, fun he => by rw [he]; rfl⟩
      have hpush : (k.set s.sp.val s.pc hsp)[j] = (s.stack.set s.sp.val s.pc hsp)[j] := by
        by_cases hjsp : s.sp.val = j.val
        · simp [hjsp]
        · have hj' : j.val < s.sp.val + 1 := hj
          simpa [hjsp] using hk j (by omega)
      exact hpush
    · have hge := Nat.le_of_not_lt hnnn
      cases (exec_of_attempt_error (attempt_call_of_ge hsp hge)).symm.trans h
      exact mirrors_of_kept hk (exec_of_attempt_error (attempt_call_of_ge (s := s.withUnread b k) hsp hge)) rfl rfl rfl
  · have hfull : s.sp.val = Config.stackDepth := by omega
    cases (exec_of_attempt_error (attempt_call_full hfull nnn)).symm.trans h
    exact mirrors_of_kept hk (exec_of_attempt_error (attempt_call_full (s := s.withUnread b k) hfull nnn)) rfl rfl rfl

/-- RET reads the newest entry, which is in use. -/
theorem mirrors_exec_ret {s t : State} {b : TimerVal} {k : Vector StackEntry Config.stackDepth}
    (hk : UsedEntriesAgree s k) (h : exec .ret s = .next t) : Mirrors s b k t (exec .ret (s.withUnread b k)) := by
  by_cases hsp : s.sp.val = 0
  · cases (exec_of_attempt_error (attempt_ret_empty hsp)).symm.trans h
    exact mirrors_of_kept hk (exec_of_attempt_error (attempt_ret_empty (s := s.withUnread b k) hsp)) rfl rfl rfl
  · obtain ⟨n, hn⟩ := exists_newest_entry hsp
    cases (exec_of_attempt_ok (attempt_ret_of_pos n hn)).symm.trans h
    have hnewest : (s.withUnread b k).stack[n] = s.stack[n] := hk n (by omega)
    refine ⟨b, k, ?_, fun j hj => hk j ?_, id, id⟩
    · rw [exec_of_attempt_ok (attempt_ret_of_pos (s := s.withUnread b k) n hn), hnewest]
      rfl
    · have hj' : j.val < n.val := hj
      omega

theorem mirrors_exec {i : Instr} {s t : State} {b : TimerVal} {k : Vector StackEntry Config.stackDepth}
    (hk : UsedEntriesAgree s k) (h : exec i s = .next t) : Mirrors s b k t (exec i (s.withUnread b k)) := by
  cases i with
  | call nnn => exact mirrors_exec_call hk h
  | ret => exact mirrors_exec_ret hk h
  | ldStVx x =>
    cases h
    exact ⟨s.reg x, k, rfl, hk, fun _ => rfl, fun he => he⟩
  | _ => exact mirrors_exec_of_not_written (by simp [writtenParts]) (by simp [writtenParts]) hk h

/-! ### One step -/

theorem mirrors_step {s t : State} {b : TimerVal} {k : Vector StackEntry Config.stackDepth}
    (hk : UsedEntriesAgree s k) (h : step s = .next t) : Mirrors s b k t (step (s.withUnread b k)) := by
  obtain ⟨b', hafter, hb'⟩ := afterTimers_withUnread b k s
  have hop : atOperation (s.withUnread b k) = (atOperation s).withUnread b' k := by
    rw [atOperation_eq_setPc, hafter]
    rfl
  have hk' : UsedEntriesAgree (afterTimers s) k := by simpa [UsedEntriesAgree] using hk
  have hkept {u : State} (hst : u.st = (afterTimers s).st) (hstack : u.stack = (afterTimers s).stack)
      (hsp : u.sp = (afterTimers s).sp) : Mirrors s b k u (.next (u.withUnread b' k)) := by
    obtain ⟨c, k', ho, hused, hc, hs⟩ := mirrors_of_kept hk' rfl hst hstack hsp
    exact ⟨c, k', ho, hused, fun hb => hc (hb' hb), fun he => hs (he.trans (afterTimers_stack s).symm)⟩
  cases stepKind s with
  | faulted hf =>
    cases (step_of_faulted hf).symm.trans h
    exact ⟨b, k, step_of_faulted (s := s.withUnread b k) hf, hk, id, id⟩
  | waiting x hf hw =>
    cases (step_of_waiting hf hw).symm.trans h
    rw [step_of_waiting (s := s.withUnread b k) hf hw, hafter, keyWaitStep_withUnread]
    have hu := unchanged_keyWaitStep x (afterTimers s)
    obtain ⟨hstack, hsp⟩ := hu .stack (by decide)
    exact hkept (hu .st (by decide)) hstack hsp
  | noWord hr hpc =>
    cases (step_of_not_fetchable hr hpc).symm.trans h
    rw [step_of_not_fetchable (s := s.withUnread b k) hr hpc, hafter]
    exact hkept rfl rfl rfl
  | instr i hr hpc hd =>
    rw [step_of_instr (s := s.withUnread b k) hr hpc hd, hop]
    have hexec := (step_of_instr hr hpc hd).symm.trans h
    obtain ⟨c, k', ho, hused, hc, hs⟩ := mirrors_exec (b := b') (s := atOperation s) hk' hexec
    exact ⟨c, k', ho, hused, fun hb => hc (hb' hb), fun he => hs (he.trans (afterTimers_stack s).symm)⟩
  | unknown w hr hpc hd =>
    cases (step_of_unknown hr hpc hd).symm.trans h
    rw [step_of_unknown (s := s.withUnread b k) hr hpc hd, hop]
    exact hkept rfl rfl rfl

/-- Settles O45: with the same stack, other contents of `ST` lead to other contents of `ST` alone. -/
theorem soundTimerIsUnobservable : Obligations.SoundTimerIsUnobservable := by
  unfold Obligations.SoundTimerIsUnobservable
  intro s t b h
  obtain ⟨b', k', ho, -, -, hk'⟩ := mirrors_step (b := b) (k := s.stack) (fun _ _ => rfl) h
  cases hk' rfl
  exact ⟨b', ho⟩

/-- Settles O46: with the same `ST`, other contents of unused entries lead to other contents of unused entries alone. -/
theorem unusedStackIsUnobservable : Obligations.UnusedStackIsUnobservable := by
  unfold Obligations.UnusedStackIsUnobservable
  intro s t k hk h
  obtain ⟨b', k', ho, hused, hb', -⟩ := mirrors_step (b := s.st) hk h
  cases hb' rfl
  exact ⟨k', ho, hused⟩

end Sys2Proof.Machine
end

section
/-! SUPPORT. From the attempt of an instruction to the effects the statements name, and the words of the statements as
encodings. -/

namespace Sys2Proof.Machine

theorem decode_of_eq_encode {w : Word} {i : Instr} (hi : i.WellFormed) (hw : w = encode i) : decode w = .instr i :=
  hw ▸ decode_encode hi

/-- The word `op << 12 | x << 8 | y << 4 | n`, with the nibble a number. -/
theorem wordXYN_eq_formatFXY_ofNat (op : BitVec 4) (x y : RegIdx) {n : Nat} (hn : n < 16) :
    wordXYN (op.toNat <<< 12) x y n = formatFXY op x y (BitVec.ofNat 4 n) := by
  have hnib : (BitVec.ofNat 4 n).toNat = n := (BitVec.toNat_ofNat n 4).trans (Nat.mod_eq_of_lt hn)
  have hw := wordXYN_eq_formatFXY op (BitVec.ofNat 4 n) x y
  rwa [hnib] at hw

/-- The word `op << 12 | x << 8 | y << 4`. -/
theorem wordXY_eq_formatFXY (op : BitVec 4) (x y : RegIdx) : wordXY (op.toNat <<< 12) x y = formatFXY op x y 0x0#4 := by
  rw [← wordXYN_eq_formatFXY, ← wordXY_or_eq_wordXYN]
  simp

/-! ### Jumps and skips -/

theorem jumpsTo_of_attempt_eq_jump {i : Instr} {s : State} {a : Nat} (h : attempt i s = jump i a s)
    (ha : a < Config.ramSize) : JumpsTo i s a :=
  jumpsTo_of_exec_eq_jump ((exec_eq_complete i s).trans (congrArg (complete s) h)) ha

theorem raises_of_attempt_eq_jump {i : Instr} {s : State} {a : Nat} (h : attempt i s = jump i a s)
    (ha : Config.ramSize ≤ a) : Raises i s .addressFault :=
  raises_of_attempt_error (h.trans (jump_of_ge ha i s))

/-- An instruction that attempts `skip(cond)` has the effect of the statements' `SkipsIf` (R110). -/
theorem skipsIf_of_attempt_eq_skip {i : Instr} {s : State} {cond : Bool} {p : Prop}
    (h : attempt i s = skip i cond s) (hp : cond = true ↔ p) : SkipsIf i s p := by
  refine ⟨fun hn => ?_, fun hc hlt => ?_, fun hc hge => ?_⟩
  · rw [Bool.eq_false_iff.mpr (mt hp.mp hn), skip_false] at h
    exact ⟨s, exec_of_attempt_ok h, unchanged_refl _ s⟩
  · rw [hp.mpr hc, skip_true] at h
    exact jumpsTo_of_attempt_eq_jump h hlt
  · rw [hp.mpr hc, skip_true] at h
    exact raises_of_attempt_eq_jump h hge

/-! ### Checked accesses -/

theorem exec_of_attempt_eq_checked {i : Instr} {s u : State} {last : Nat} (h : attempt i s = checked i last u s)
    (hlt : last < Config.ramSize) : exec i s = .next u :=
  exec_of_attempt_ok (h.trans (checked_of_lt hlt i u s))

theorem raises_of_attempt_eq_checked {i : Instr} {s u : State} {last : Nat} (h : attempt i s = checked i last u s)
    (hge : Config.ramSize ≤ last) : Raises i s .addressFault :=
  raises_of_attempt_error (h.trans (checked_of_ge hge i u s))

end Sys2Proof.Machine
end

section
/-! PROOF. 41_control_flow.md and the key skips of 46_input.md: CALL, RET, the skips, JMP V0 and the wait for a key. -/

namespace Sys2Proof.Machine

/-! ### CALL and RET -/

/-- Settles O2: the push writes the entry at `SP` and the jump's 12-bit target passes its check. -/
theorem callPushesReturnAddress : Obligations.CallPushesReturnAddress := by
  unfold Obligations.CallPushesReturnAddress
  intro nnn hnnn
  have hw : wordA 0x2000 nnn = encode (.call nnn) := wordA_eq_formatFA 0x2#4 hnnn
  refine ⟨decode_of_eq_encode ((wellFormed_call nnn).mpr hnnn) hw, fun s => ⟨fun k hk => ?_, fun hfull => ?_⟩⟩
  · have hsp : s.sp.val < Config.stackDepth := hk ▸ k.isLt
    refine ⟨_, exec_of_attempt_ok (attempt_call_of_lt hsp hnnn), pcVal_ofNat_toNat hnnn, congrArg (· + 1) hk, ?_,
      fun j hj => ?_, unchanged_setStack_setPc s _ _ _⟩
    · simp [hk]
    · have hne : k.val ≠ j.val := fun he => hj (Fin.ext he.symm)
      simp [hk, hne]
  · exact raises_of_attempt_error (attempt_call_full hfull nnn)

/-- Settles O3, by whether an entry is in use. -/
theorem retPopsReturnAddress : Obligations.RetPopsReturnAddress := by
  unfold Obligations.RetPopsReturnAddress
  refine ⟨decode_of_eq_encode (i := .ret) rfl rfl, fun s => ⟨fun k hk => ?_, fun hempty => ?_⟩⟩
  · exact ⟨_, exec_of_attempt_ok (attempt_ret_of_pos k hk), rfl, rfl, rfl, unchanged_setStack_setPc s _ _ _⟩
  · exact raises_of_attempt_error (attempt_ret_empty hempty)

/-- Settles O4: the entry RET reads is the one CALL has written. -/
theorem retUndoesCall : Obligations.RetUndoesCall := by
  unfold Obligations.RetUndoesCall
  intro s t u nnn hsp hcall hnnn hret
  cases (exec_of_attempt_ok (attempt_call_of_lt hsp hnnn)).symm.trans hcall
  cases (exec_of_attempt_ok (attempt_ret_of_pos ⟨s.sp.val, hsp⟩ rfl)).symm.trans hret
  refine ⟨?_, rfl, rfl, fun j hj => ?_⟩
  · simp
  · simp [Ne.symm hj]

/-! ### Skips and jumps -/

/-- Settles O5: each attempts `skip` on the comparison of its register with the immediate. -/
theorem immediateSkips : Obligations.ImmediateSkips := by
  unfold Obligations.ImmediateSkips
  intro x kk
  have hse : wordXK 0x3000 x kk = encode (.seVxKk x kk) := wordXK_eq_formatFXK 0x3#4 x kk
  have hsne : wordXK 0x4000 x kk = encode (.sneVxKk x kk) := wordXK_eq_formatFXK 0x4#4 x kk
  exact ⟨decode_of_eq_encode rfl hse, decode_of_eq_encode rfl hsne, fun s =>
    ⟨skipsIf_of_attempt_eq_skip rfl beq_iff_eq, skipsIf_of_attempt_eq_skip rfl bne_iff_ne⟩⟩

/-- In families 5 and 9 a low nibble other than 0 is `Unknown` (R75, D5). -/
theorem decode_formatFXY_unknown {op : BitVec 4} (hop : op = 0x5#4 ∨ op = 0x9#4) {n : BitVec 4} (hn : n.toNat ≠ 0)
    (x y : RegIdx) : decode (formatFXY op x y n) = .unknown (formatFXY op x y n) := by
  obtain rfl | rfl := hop <;> simp only [decode, opField_formatFXY, nField_formatFXY, if_neg hn] <;> rfl

/-- Settles O6: as the immediate skips, with a second register; the words with a low nibble are none of the two. -/
theorem registerSkips : Obligations.RegisterSkips := by
  unfold Obligations.RegisterSkips
  intro x y
  have hse : wordXY 0x5000 x y = encode (.seVxVy x y) := wordXY_eq_formatFXY 0x5#4 x y
  have hsne : wordXY 0x9000 x y = encode (.sneVxVy x y) := wordXY_eq_formatFXY 0x9#4 x y
  refine ⟨decode_of_eq_encode rfl hse, decode_of_eq_encode rfl hsne, fun n hpos hlt => ?_, fun s =>
    ⟨skipsIf_of_attempt_eq_skip rfl beq_iff_eq, skipsIf_of_attempt_eq_skip rfl bne_iff_ne⟩⟩
  have hn : (BitVec.ofNat 4 n).toNat ≠ 0 := by
    rw [BitVec.toNat_ofNat, Nat.mod_eq_of_lt hlt]
    omega
  have h5 : wordXYN 0x5000 x y n = formatFXY 0x5#4 x y (BitVec.ofNat 4 n) := wordXYN_eq_formatFXY_ofNat 0x5#4 x y hlt
  have h9 : wordXYN 0x9000 x y n = formatFXY 0x9#4 x y (BitVec.ofNat 4 n) := wordXYN_eq_formatFXY_ofNat 0x9#4 x y hlt
  rw [h5, h9]
  exact ⟨decode_formatFXY_unknown (.inl rfl) hn x y, decode_formatFXY_unknown (.inr rfl) hn x y⟩

/-- Settles O7: the whole meaning is a jump to the sum formed in full. -/
theorem jmpV0AddsV0 : Obligations.JmpV0AddsV0 := by
  unfold Obligations.JmpV0AddsV0
  intro nnn hnnn
  have hw : wordA 0xB000 nnn = encode (.jmpV0 nnn) := wordA_eq_formatFA 0xB#4 hnnn
  exact ⟨decode_of_eq_encode ((wellFormed_jmpV0 nnn).mpr hnnn) hw, fun s =>
    ⟨fun hlt => jumpsTo_of_attempt_eq_jump rfl hlt, fun hge => raises_of_attempt_eq_jump rfl hge⟩⟩

/-! ### Keys -/

theorem isKeyDown_iff (k : KeyCode) (s : State) : isKeyDown k s = true ↔ k ∈ s.ports.keysDown := decide_eq_true_iff

/-- Settles O25: a code the keypad does not take faults first; with a code it takes the skip is on the port's answer. -/
theorem keySkips : Obligations.KeySkips := by
  unfold Obligations.KeySkips
  intro x
  have hskp : wordX 0xE09E x = encode (.skp x) := wordX_eq_formatFXS 0xE#4 0x9E#8 x
  have hsknp : wordX 0xE0A1 x = encode (.sknp x) := wordX_eq_formatFXS 0xE#4 0xA1#8 x
  refine ⟨decode_of_eq_encode rfl hskp, decode_of_eq_encode rfl hsknp, fun s =>
    ⟨fun hge => ⟨?_, ?_⟩, fun k hk => ⟨?_, ?_⟩⟩⟩
  · exact raises_of_attempt_error (i := .skp x) (keySkip_of_ge hge _ _)
  · exact raises_of_attempt_error (i := .sknp x) (keySkip_of_ge hge _ _)
  · exact skipsIf_of_attempt_eq_skip (i := .skp x) (keySkip_of_lt k hk _ _) (by simp [isKeyDown_iff])
  · exact skipsIf_of_attempt_eq_skip (i := .sknp x) (keySkip_of_lt k hk _ _) (by simp [← isKeyDown_iff])

/-- Settles O26: the whole meaning is one write of `halted_on_key`, which reads no port. -/
theorem waitForKeyHalts : Obligations.WaitForKeyHalts := by
  unfold Obligations.WaitForKeyHalts
  intro x
  have hw : wordX 0xF00A x = encode (.ldVxK x) := wordX_eq_formatFXS 0xF#4 0x0A#8 x
  exact ⟨decode_of_eq_encode rfl hw, fun s =>
    ⟨_, exec_of_attempt_ok (i := .ldVxK x) rfl, setHalted_haltedOnKey s _, unchanged_setHalted s _⟩⟩

end Sys2Proof.Machine
end

section
/-! PROOF. The shifts of 43_alu.md. -/

namespace Sys2Proof.Machine

theorem decode_wordXY_shr (x y : RegIdx) : decode (wordXY 0x8006 x y) = .instr (.shr x y) :=
  decode_wordXY_of_decode8 (n := 0x6#4) (fun _ h => by simp [decode8, h]) x y

theorem decode_wordXY_shl (x y : RegIdx) : decode (wordXY 0x800E x y) = .instr (.shl x y) :=
  decode_wordXY_of_decode8 (n := 0xE#4) (fun _ h => by simp [decode8, h]) x y

theorem shiftedOutRight_iff (a : RegVal) : shiftedOutRight a = true ↔ a.toNat % 2 = 1 := by
  simp [shiftedOutRight, BitVec.getLsbD, Nat.testBit_zero]

/-- Bit 7 is the topmost of the 8. -/
theorem shiftedOutLeft_iff (a : RegVal) : shiftedOutLeft a = true ↔ 128 ≤ a.toNat := by
  have ha : a.toNat < 256 := a.isLt
  have hbit : a.getLsbD 7 = decide (a.toNat / 2 ^ 7 % 2 = 1) := Nat.testBit_eq_decide_div_mod_eq
  rw [shiftedOutLeft, hbit, decide_eq_true_iff]
  omega

theorem regVal_toNat_shiftRight_one (a : RegVal) : (a >>> 1).toNat = a.toNat / 2 :=
  (BitVec.toNat_ushiftRight a 1).trans (Nat.shiftRight_one _)

theorem regVal_toNat_shiftLeft_one (a : RegVal) : (a <<< 1).toNat = a.toNat * 2 % 256 := by
  have hshl : (a <<< 1).toNat = a.toNat <<< 1 % 2 ^ 8 := BitVec.toNat_shiftLeft
  exact hshl.trans (congrArg (· % 256) (Nat.shiftLeft_eq a.toNat 1))

/-- Both shifts write their operand, shifted by one, and the bit moved out, whichever register holds it (R158, R160). -/
theorem shifts_of_shiftOperand {s : State} {x y : RegIdx} {a : RegVal}
    (ha : shiftOperand s.params.shiftSource x y s = a) :
    WritesRegAndFlag (.shr x y) s x (a.toNat / 2) (a.toNat % 2 = 1) ∧
      WritesRegAndFlag (.shl x y) s x (a.toNat * 2 % 256) (128 ≤ a.toNat) := by
  subst ha
  exact ⟨writesRegAndFlag_of_exec_eq_runAlu (op := .shr) (exec_of_attempt_ok rfl) (regVal_toNat_shiftRight_one _) rfl
      (shiftedOutRight_iff _),
    writesRegAndFlag_of_exec_eq_runAlu (op := .shl) (exec_of_attempt_ok rfl) (regVal_toNat_shiftLeft_one _) rfl
      (shiftedOutLeft_iff _)⟩

/-- Settles O14: the parameter chooses the operand, and the rest is one argument for both choices. -/
theorem shiftsWriteShiftedOutBit : Obligations.ShiftsWriteShiftedOutBit := by
  unfold Obligations.ShiftsWriteShiftedOutBit
  refine fun x y => ⟨decode_wordXY_shr x y, decode_wordXY_shl x y, fun s => ⟨fun hsrc => ?_, fun hsrc => ?_⟩⟩
  · exact shifts_of_shiftOperand (by rw [hsrc]; rfl)
  · exact shifts_of_shiftOperand (by rw [hsrc]; rfl)

end Sys2Proof.Machine
end

section
/-! SUPPORT. The bytes that Fx33 and Fx55 store, by their place in the block (R173, R174). -/

namespace Sys2Proof.Machine

theorem byteAt_storeBytes_effectiveAddress (s : State) {bs : List Byte} {k : Nat} (hk : k < bs.length) :
    (s.storeBytes (effectiveAddress s 0) bs).byteAt (effectiveAddress s k) = bs[k] := by
  rw [effectiveAddress_eq s k]
  exact byteAt_storeBytes_add s _ hk

theorem byteAt_storeBytes_of_ne_effectiveAddress (s : State) {bs : List Byte} {a : Nat}
    (h : ∀ k, k < bs.length → a ≠ effectiveAddress s k) :
    (s.storeBytes (effectiveAddress s 0) bs).byteAt a = s.byteAt a :=
  byteAt_storeBytes_outside s h

/-- The `k`-th of the three decimal digits, the hundreds first (R173). -/
theorem bcdDigits_getElem_toNat (b : RegVal) {k : Nat} (hk : k < 3) :
    ((bcdDigits b)[k]'hk).toNat = b.toNat / 10 ^ (2 - k) % 10 := by
  have hb : b.toNat < 256 := b.isLt
  match k with
  | 0 =>
    have hdiv : (b / 100#8).toNat = b.toNat / 100 := BitVec.toNat_udiv
    exact hdiv.trans (by omega)
  | 1 =>
    have hdiv : (b / 10#8).toNat = b.toNat / 10 := BitVec.toNat_udiv
    have hmod : (b / 10#8 % 10#8).toNat = (b / 10#8).toNat % 10 := BitVec.toNat_umod
    exact hmod.trans (by omega)
  | 2 =>
    have hmod : (b % 10#8).toNat = b.toNat % 10 := BitVec.toNat_umod
    exact hmod.trans (by omega)

theorem regsUpTo_getElem_val (s : State) {x j : RegIdx} (hj : j ≤ x) :
    (regsUpTo x s)[j.val]'(by rw [regsUpTo_length]; exact Nat.lt_succ_of_le hj) = s.reg j :=
  regsUpTo_getElem x s j.val _

/-- A store's end is below `RAM_SIZE`, so it completes and writes memory alone. -/
theorem exec_ldBVx_of_lt {s : State} (h : s.i.toNat + 2 < Config.ramSize) (x : RegIdx) :
    exec (.ldBVx x) s = .next (s.storeBytes (effectiveAddress s 0) (bcdDigits (s.reg x))) :=
  exec_of_attempt_eq_checked rfl h

theorem exec_ldMemVx_of_lt {s : State} {x : RegIdx} (h : s.i.toNat + x.val < Config.ramSize) :
    exec (.ldMemVx x) s = .next (s.storeBytes (effectiveAddress s 0) (regsUpTo x s)) :=
  exec_of_attempt_eq_checked rfl h

theorem exec_ldVxMem_of_lt {s : State} {x : RegIdx} (h : s.i.toNat + x.val < Config.ramSize) :
    exec (.ldVxMem x) s = .next (loadRegsUpTo x (effectiveAddress s 0) s) :=
  exec_of_attempt_eq_checked rfl h

end Sys2Proof.Machine
end

section
/-! PROOF. 44_index_memory.md: the address register, the digits, and the block transfers. -/

namespace Sys2Proof.Machine

/-! ### The address register -/

/-- Settles O16: 5 times a byte fits the 16 bits of `I`. -/
theorem ldFPointsAtGlyph : Obligations.LdFPointsAtGlyph := by
  unfold Obligations.LdFPointsAtGlyph
  intro x
  have hw : wordX 0xF029 x = encode (.ldFVx x) := wordX_eq_formatFXS 0xF#4 0x29#8 x
  refine ⟨decode_of_eq_encode rfl hw, fun s => ?_⟩
  have hx := reg_toNat_lt s x
  have hlt : Config.fontBase + (s.reg x).toNat * Config.fontGlyphBytes < Config.ramSize :=
    show 0 + (s.reg x).toNat * 5 < 4096 by omega
  have hval := (pcVal_ofNat_toNat hlt).trans (Nat.zero_add _)
  exact hval ▸ writesI_of_exec_eq_setI (exec_of_attempt_ok (i := .ldFVx x) rfl)

/-- Settles O17: the sum is checked in full, then written to `I`. -/
theorem addToIChecksRange : Obligations.AddToIChecksRange := by
  unfold Obligations.AddToIChecksRange
  intro x
  have hw : wordX 0xF01E x = encode (.addIVx x) := wordX_eq_formatFXS 0xF#4 0x1E#8 x
  refine ⟨decode_of_eq_encode rfl hw, fun s => ⟨fun hlt => ?_, fun hge => ?_⟩⟩
  · have hval : (BitVec.ofNat Config.iWidth _).toNat = _ := pcVal_ofNat_toNat hlt
    exact hval ▸ writesI_of_exec_eq_setI (exec_of_attempt_eq_checked (i := .addIVx x) rfl hlt)
  · exact raises_of_attempt_eq_checked (i := .addIVx x) rfl hge

/-! ### Stores and loads -/

/-- Settles O18: the block of three digits starts at `I`. -/
theorem bcdStoresThreeDigits : Obligations.BcdStoresThreeDigits := by
  unfold Obligations.BcdStoresThreeDigits
  intro x
  have hw : wordX 0xF033 x = encode (.ldBVx x) := wordX_eq_formatFXS 0xF#4 0x33#8 x
  refine ⟨decode_of_eq_encode rfl hw, fun s => ⟨fun hlt => ?_, fun hge => ?_⟩⟩
  · have hdigit {k : Nat} (hk : k < 3) :
        ((s.storeBytes (effectiveAddress s 0) (bcdDigits (s.reg x))).byteAt (effectiveAddress s k)).toNat =
          (s.reg x).toNat / 10 ^ (2 - k) % 10 := by
      rw [byteAt_storeBytes_effectiveAddress s hk]
      exact bcdDigits_getElem_toNat (s.reg x) hk
    have hx := reg_toNat_lt s x
    refine ⟨_, exec_ldBVx_of_lt hlt x, (hdigit (k := 0) (by decide)).trans ?_, hdigit (k := 1) (by decide),
      (hdigit (k := 2) (by decide)).trans ?_, fun a ha => byteAt_storeBytes_of_ne_effectiveAddress s ha,
      unchanged_storeBytes s _ _⟩
    · omega
    · omega
  · exact raises_of_attempt_eq_checked (i := .ldBVx x) rfl hge

/-- Settles O19: the block of the registers up to `x` starts at `I`. -/
theorem storeRegistersAtI : Obligations.StoreRegistersAtI := by
  unfold Obligations.StoreRegistersAtI
  intro x
  have hw : wordX 0xF055 x = encode (.ldMemVx x) := wordX_eq_formatFXS 0xF#4 0x55#8 x
  refine ⟨decode_of_eq_encode rfl hw, fun s => ⟨fun hlt => ?_, fun hge => ?_⟩⟩
  · refine ⟨_, exec_ldMemVx_of_lt hlt, fun j hj => ?_, fun a ha => ?_, unchanged_storeBytes s _ _⟩
    · have hlen : j.val < (regsUpTo x s).length := by
        rw [regsUpTo_length]
        exact Nat.lt_succ_of_le hj
      rw [byteAt_storeBytes_effectiveAddress s hlen, regsUpTo_getElem_val s hj]
    · refine byteAt_storeBytes_of_ne_effectiveAddress s fun k hk => ?_
      rw [regsUpTo_length] at hk
      exact ha ⟨k, by omega⟩ (Nat.le_of_lt_succ hk)
  · exact raises_of_attempt_eq_checked (i := .ldMemVx x) rfl hge

/-- Settles O20: the load reads the block of bytes at `I`, register by register. -/
theorem loadRegistersFromI : Obligations.LoadRegistersFromI := by
  unfold Obligations.LoadRegistersFromI
  intro x
  have hw : wordX 0xF065 x = encode (.ldVxMem x) := wordX_eq_formatFXS 0xF#4 0x65#8 x
  refine ⟨decode_of_eq_encode rfl hw, fun s => ⟨fun hlt => ?_, fun hge => ?_⟩⟩
  · refine ⟨_, exec_ldVxMem_of_lt hlt, fun j hj => ?_, fun j hj => ?_, unchanged_loadRegsUpTo s x _⟩
    · rw [reg_loadRegsUpTo, if_pos hj, effectiveAddress_eq s j.val]
    · rw [reg_loadRegsUpTo, if_neg (not_le_of_gt hj)]
  · exact raises_of_attempt_eq_checked (i := .ldVxMem x) rfl hge

/-- Settles O21: with `I` and memory as the store has left them, the load reads the stored registers up to `x`; the ones
above it nobody has written. -/
theorem storeThenLoadRestoresRegisters : Obligations.StoreThenLoadRestoresRegisters := by
  unfold Obligations.StoreThenLoadRestoresRegisters
  intro x s t u w hlt hstore hregs hrest hload j
  obtain ⟨-, hstores⟩ := storeRegistersAtI x
  obtain ⟨hcompletes, -⟩ := hstores s
  obtain ⟨t', ht', hbytes, -, hst⟩ := hcompletes hlt
  cases ht'.symm.trans hstore
  have hi : u.i = s.i := (hrest .i (by decide)).trans (hst .i (by decide))
  obtain ⟨-, hloads⟩ := loadRegistersFromI x
  obtain ⟨hcompletes, -⟩ := hloads u
  obtain ⟨w', hw', hlow, hhigh, -⟩ := hcompletes (hi ▸ hlt)
  cases hw'.symm.trans hload
  by_cases hj : j ≤ x
  · calc
      w.reg j = u.byteAt (effectiveAddress u j.val) := hlow j hj
      _ = t.byteAt (effectiveAddress u j.val) := hrest .mem (by decide) _
      _ = t.byteAt (effectiveAddress s j.val) := by rw [effectiveAddress, effectiveAddress, hi]
      _ = s.reg j := hbytes j hj
  · calc
      w.reg j = u.reg j := hhigh j (lt_of_not_ge hj)
      _ = t.reg j := hregs j (by simpa using hj)
      _ = s.reg j := hst .regs (by decide) j

/-! ### A store over the coming word -/

/-- The `k`-th byte of a word, the high one first (R52). -/
theorem assembleWord_byte (b : Nat → Byte) {k : Nat} (hk : k < 2) :
    (assembleWord (b 0) (b 1)).toNat / 256 ^ (1 - k) % 256 = (b k).toNat := by
  have h0 : (b 0).toNat < 256 := (b 0).isLt
  have h1 : (b 1).toNat < 256 := (b 1).isLt
  rw [assembleWord_toNat]
  match k with
  | 0 => show ((b 0).toNat * 256 + (b 1).toNat) / 256 % 256 = _; omega
  | 1 => show ((b 0).toNat * 256 + (b 1).toNat) / 1 % 256 = _; omega

/-- A store of the block `bs` at `I` keeps `PC`, so the fetch after it reads the block's bytes where it meets them. -/
theorem fetchesAsStored_of_exec_eq_storeBytes {i : Instr} {s : State} {bs : List Byte} {b : Nat → Nat}
    (hpc : s.pc.toNat + 2 ≤ Config.ramSize) (he : exec i s = .next (s.storeBytes (effectiveAddress s 0) bs))
    (hlen : bs.length = storedCount i) (hb : ∀ j (h : j < bs.length), bs[j].toNat = b j) : FetchesAsStored i s b := by
  have hword {k : Nat} (hk : k < 2) := assembleWord_byte
    (fun j => (s.storeBytes (effectiveAddress s 0) bs).byteAt (s.pc.toNat + j)) hk
  refine ⟨_, _, he, fetch_of_le hpc, fun k hk => ⟨fun j hj haddr => ?_, fun hnone => ?_⟩⟩
  · rw [← hlen] at hj
    rw [← hb j hj, ← byteAt_storeBytes_effectiveAddress s hj, haddr]
    exact hword hk
  · rw [← byteAt_storeBytes_of_ne_effectiveAddress s fun j hj => (hnone j (hlen ▸ hj)).symm]
    exact hword hk

/-- Settles O22: both instructions store one block at `I`, of the digits or of the registers. -/
theorem fetchSeesStoredBytes : Obligations.FetchSeesStoredBytes := by
  unfold Obligations.FetchSeesStoredBytes
  intro x s hpc
  refine ⟨fun hlt => ?_, fun hlt => ?_⟩
  · exact fetchesAsStored_of_exec_eq_storeBytes hpc (exec_ldBVx_of_lt hlt x) rfl fun j hj =>
      bcdDigits_getElem_toNat (s.reg x) hj
  · refine fetchesAsStored_of_exec_eq_storeBytes hpc (exec_ldMemVx_of_lt hlt) (regsUpTo_length x s) fun j hj => ?_
    have hj' : j < 16 := by
      have hx : x.val < 16 := x.isLt
      rw [regsUpTo_length] at hj
      omega
    rw [regsUpTo_getElem]
    congr 2
    exact Fin.ext (Nat.mod_eq_of_lt hj').symm

end Sys2Proof.Machine
end

section
/-! PROOF. The sprites of 47_display.md: one draw flips the covered pixels, a second one flips them back. -/

namespace Sys2Proof.Machine

/-- A draw of at most as many rows as the display has toggles no pixel twice (R213). -/
theorem spritePixels_drawAtI_nodup (s : State) (x y : RegIdx) {n : Nat} (hn : n ≤ Config.displayH) :
    (spritePixels s.params.spriteBitOrder (s.reg x).toNat (s.reg y).toNat 0
      (s.mem.readBytes (effectiveAddress s 0) n)).Nodup :=
  spritePixels_nodup _ _ _ _ _ (by rw [Memory.readBytes_length]; exact hn)

theorem pixel_drawAtI_of_covers {s : State} {x y : RegIdx} {n : Nat} (hn : n ≤ Config.displayH) {p : Pixel}
    (h : spriteCovers s x y n p) : (drawAtI x y n s).screen.pixel p = !s.screen.pixel p := by
  obtain ⟨hpixel, -⟩ := togglePixels_spec s.screen _ (spritePixels_drawAtI_nodup s x y hn)
  exact (hpixel p).trans (if_pos ((mem_spritePixels_iff_spriteCovers s x y n p).mpr h))

/-- `VF` is 1 where the sprite covers a lit pixel, and 0 where it covers none (R212, R213). -/
theorem reg_vf_drawAtI (s : State) (x y : RegIdx) {n : Nat} (hn : n ≤ Config.displayH) :
    ∃ hit, (drawAtI x y n s).reg vf = flagByte hit ∧
      (hit = true ↔ ∃ p, spriteCovers s x y n p ∧ s.screen.pixel p = true) := by
  obtain ⟨-, hhit⟩ := togglePixels_spec s.screen _ (spritePixels_drawAtI_nodup s x y hn)
  refine ⟨_, reg_setReg_same _ vf _, hhit.trans ?_⟩
  simp only [mem_spritePixels_iff_spriteCovers]

theorem flagByte_eq_one_iff (f : Bool) : flagByte f = 0x01 ↔ f = true := by
  cases f <;> decide

/-- Settles O29: a sprite of at most 15 rows covers no pixel twice, so a draw is one flip of each covered pixel. -/
theorem drwXorsSprite : Obligations.DrwXorsSprite := by
  unfold Obligations.DrwXorsSprite
  intro x y n hn
  have hrows : n ≤ Config.displayH := show n ≤ 32 by omega
  have hw : wordXYN 0xD000 x y n = encode (.drw x y n) := wordXYN_eq_formatFXY_ofNat 0xD#4 x y hn
  refine ⟨decode_of_eq_encode ((wellFormed_drw x y n).mpr hn) hw, fun s => ⟨fun hle => ?_, fun hgt => ?_⟩⟩
  · obtain ⟨hit, hvf, hhit⟩ := reg_vf_drawAtI s x y hrows
    refine ⟨_, exec_of_attempt_ok (attempt_drw_of_le hle x y), fun p hp => pixel_drawAtI_of_covers hrows hp,
      fun p hp => pixel_drawAtI_of_not_covers hp, fun hlit => ?_, fun hdark => ?_, regsUnchanged_drawAtI x y n s,
      unchanged_drawAtI x y n s⟩
    · exact hvf.trans ((flagByte_eq_one_iff hit).mpr (hhit.mpr hlit))
    · have hmiss : hit = false := Bool.eq_false_iff.mpr fun h => by
        obtain ⟨p, hp, hlit⟩ := hhit.mp h
        exact absurd hlit (Bool.eq_false_iff.mp (hdark p hp))
      exact hvf.trans (congrArg flagByte hmiss)
  · exact raises_of_attempt_error (attempt_drw_of_gt hgt x y)

/-- A draw keeps what its sprite covers, where neither coordinate is held in `VF`. -/
theorem spriteCovers_drawAtI {x y : RegIdx} (hx : x ≠ vf) (hy : y ≠ vf) (n : Nat) (s : State) (p : Pixel) :
    spriteCovers (drawAtI x y n s) x y n p ↔ spriteCovers s x y n p := by
  have hregx : (drawAtI x y n s).reg x = s.reg x := regsUnchanged_drawAtI x y n s x (by simpa using hx)
  have hregy : (drawAtI x y n s).reg y = s.reg y := regsUnchanged_drawAtI x y n s y (by simpa using hy)
  unfold spriteCovers
  rw [hregx, hregy]
  rfl

/-- Settles O30: the second sprite covers the pixels of the first, so each is flipped twice, and is lit before the second
draw where it was unlit before the first. -/
theorem drawingTwiceErases : Obligations.DrawingTwiceErases := by
  unfold Obligations.DrawingTwiceErases
  intro x y n s t u hn hx hy hle ht hu
  have hrows : n ≤ Config.displayH := show n ≤ 32 by omega
  cases (exec_of_attempt_ok (attempt_drw_of_le hle x y)).symm.trans ht
  cases (exec_of_attempt_ok (attempt_drw_of_le (s := drawAtI x y n s) hle x y)).symm.trans hu
  have hcovers := spriteCovers_drawAtI hx hy n s
  refine ⟨Screen.ext_pixel fun p => ?_, ?_⟩
  · by_cases hp : spriteCovers s x y n p
    · rw [pixel_drawAtI_of_covers hrows ((hcovers p).mpr hp), pixel_drawAtI_of_covers hrows hp, Bool.not_not]
    · rw [pixel_drawAtI_of_not_covers (mt (hcovers p).mp hp), pixel_drawAtI_of_not_covers hp]
  · obtain ⟨hit, hvf, hhit⟩ := reg_vf_drawAtI (drawAtI x y n s) x y hrows
    have hvf' : (drawAtI x y n (drawAtI x y n s)).reg 0xF = flagByte hit := hvf
    rw [hvf', flagByte_eq_one_iff, hhit]
    refine exists_congr fun p => ?_
    rw [hcovers p]
    refine and_congr_right fun hp => ?_
    rw [pixel_drawAtI_of_covers hrows hp, Bool.not_eq_true']

end Sys2Proof.Machine
end

section
/-! PROOF. Reset and the loader: 10_state.md section 8, 70_reset_and_hazards.md sections 1 and 2. -/

namespace Sys2Proof.Machine

/-- Above the font the reset contents are 0 (R33, R57). -/
theorem unlisted_of_ge {a : Nat} (h : 80 ≤ a) : Memory.unlisted a = 0 := by
  have hfont : fontTable.length ≤ a := h
  rw [Memory.unlisted, if_pos (Nat.zero_le a)]
  exact List.getD_eq_default fontTable 0 hfont

/-- In the first 80 addresses the reset contents are the font (R33, R57). -/
theorem unlisted_of_lt {a : Nat} (h : a < 80) : some (Memory.unlisted a) = fontTable[a]? := by
  have hfont : a < fontTable.length := h
  rw [Memory.unlisted, if_pos (Nat.zero_le a)]
  simp [hfont]

/-- Settles O47: the fields of the reset state, and memory, whose empty list reads as the font and zeros. -/
theorem resetValues : Obligations.ResetValues := by
  unfold Obligations.ResetValues
  refine ⟨by decide, rfl, rfl, rfl, by decide, rfl, rfl, rfl, rfl, rfl, fun a ha => unlisted_of_lt ha,
    fun a ha => unlisted_of_ge ha, fun p => clearScreen_pixel p, rfl, rfl, rfl, rfl⟩

/-- Settles O48: but for the parts it keeps, the driver's reset is the reset state with the configured font in memory. -/
theorem driverResetClearsBlock : Obligations.DriverResetClearsBlock := by
  unfold Obligations.DriverResetClearsBlock
  intro s
  have hread (a : Nat) := Memory.read_writeBytes [] Config.fontBase s.params.font.toList a
  refine ⟨fun p hp => ?_, fun k => ?_, fun a ha => ?_, rfl, ⟨rfl, rfl, rfl⟩, rfl, rfl, rfl⟩
  · cases p with
    | screen | ports | params | mem => simp at hp
    | regs => exact fun x => rfl
    | stack => exact ⟨rfl, rfl⟩
    | _ => rfl
  · refine (hread _).trans ?_
    simp
  · have hlen : s.params.font.toList.length = 80 := Vector.length_toList
    have hout : ¬ (Config.fontBase ≤ a ∧ a < Config.fontBase + s.params.font.toList.length) := by
      rw [hlen, Config.fontBase]
      omega
    exact ((hread a).trans (dif_neg hout)).trans (unlisted_of_ge ha)

/-- Settles O49: the loader is one store of the program at 0x200, made where the program fits. -/
theorem loaderPlacesProgram : Obligations.LoaderPlacesProgram := by
  unfold Obligations.LoaderPlacesProgram
  refine fun bytes s => ⟨fun hfit => ⟨_, if_pos hfit, unchanged_storeBytes s _ _, fun k => ?_, fun a ha => ?_⟩,
    fun hbig => if_neg (Nat.not_le_of_lt hbig)⟩
  · exact byteAt_storeBytes_add s _ k.isLt
  · exact byteAt_storeBytes_outside s fun k hk => show a ≠ 0x200 + k by omega

end Sys2Proof.Machine
end
